-- ==== Sys2Proof/Word.lean ====
section
/-! DEFINITION. The two word types of the PortController: `u8` (00_scope.md R6 `W`, R8) and the 16-bit
command and response words (30_encoding.md R60). -/

namespace Sys2Proof

/-- `u8`: the width of every register, pin mask and data byte (00_scope.md R6, R8). -/
abbrev Byte := BitVec 8

/-- A command word or a response word: parallel, 16 bits, bit 0 the least significant
(30_encoding.md R60, 00_scope.md R8). -/
abbrev Word := BitVec 16

end Sys2Proof
end

