-- ==== Sys2Proof/Syntax.lean ====
section
/-! DEFINITION. The HPC command set as syntax: one constructor of `Instr` per row of spec/opcode_table.json.
Fields a command ignores (30_encoding.md R65) are no operands and do not appear. -/

namespace Sys2Proof

/-- The PORT field (30_encoding.md R63): the source's five names in its order, and the three unrecognized
values, which the assembler writes `#5`, `#6`, `#7` (R73). Every one of them is legal in a word; whether
a command accepts it is for the block to say. -/
inductive Port where
  | a
  | b
  | c
  | cHigh
  | cLow
  | n5
  | n6
  | n7
  deriving DecidableEq, Repr, Inhabited

/-- A pin group's direction (00_scope.md R11, 30_encoding.md R65). -/
inductive Direction where
  | output  -- a 0 bit
  | input   -- a 1 bit
  deriving DecidableEq, Repr, Inhabited

/-- The seven commands (30_encoding.md R64, R72). -/
inductive Instr where
  | init                                 -- INIT                   40_init.md R80
  | setdir (group : Port) (dir : Direction) -- SETDIR group, dir   41_direction.md R90
  | pinon (port : Port) (mask : Byte)    -- PINON port, mask       42_pin_level.md R100
  | pinoff (port : Port) (mask : Byte)   -- PINOFF port, mask      42_pin_level.md R101
  | writepins (port : Port) (byte : Byte) -- WRITEPINS port, byte  43_port_data.md R110
  | readpin (port : Port) (mask : Byte)  -- READPIN port, mask     43_port_data.md R112
  | readport (port : Port)               -- READPORT port          43_port_data.md R114
  deriving DecidableEq, Repr, Inhabited

end Sys2Proof
end

