-- ==== Sys2Proof/WellFormed.lean ====
section
/-! DEFINITION. Which instructions are well formed, and which name a port their command accepts
(30_encoding.md R63). -/

namespace Sys2Proof

/-- Whether an instruction has an encoding. The operand types hold exactly what the fields of the command
word hold (30_encoding.md R62, R63, R65: three bits of PORT, eight of ARG, one of direction), so there is
nothing left to check: every term is well formed, the invalid ports among them, since the assembler
"accepts every port name for every command" (R73) and the block decides validity. -/
def Instr.wellFormed : Instr → Bool
  | .init => true
  | .setdir _ _ => true
  | .pinon _ _ => true
  | .pinoff _ _ => true
  | .writepins _ _ => true
  | .readpin _ _ => true
  | .readport _ => true

/-- The validity column "valid for SETDIR" of 30_encoding.md R63. -/
def Port.validGroup : Port → Bool
  | .a => true
  | .b => true
  | .c => false
  | .cHigh => true
  | .cLow => true
  | .n5 => false
  | .n6 => false
  | .n7 => false

/-- The validity column "valid for data commands" of 30_encoding.md R63. -/
def Port.validData : Port → Bool
  | .a => true
  | .b => true
  | .c => true
  | .cHigh => false
  | .cLow => false
  | .n5 => false
  | .n6 => false
  | .n7 => false

/-- Whether an instruction's port is one its command accepts (30_encoding.md R63). An instruction that fails
this check is answered INVALID_PORT in READY (60_exceptions.md R130). -/
def Instr.portValid : Instr → Bool
  | .init => true
  | .setdir g _ => g.validGroup
  | .pinon p _ => p.validData
  | .pinoff p _ => p.validData
  | .writepins p _ => p.validData
  | .readpin p _ => p.validData
  | .readport p => p.validData

end Sys2Proof
end

