-- ==== Sys2Proof/Decode.lean ====
section
/-! DEFINITION. The decoder of 30_encoding.md R69, total on all 65536 words and rejecting by name, and after it
the encoder written from the same tables (R62 to R65, R72). A command word is one parallel 16-bit word, so no
byte order arises (R60). -/

namespace Sys2Proof

/-- OP, bits 15:13 (30_encoding.md R62). -/
def fieldOp (w : Word) : BitVec 3 := w.extractLsb' 13 3

/-- PORT, bits 12:10. -/
def fieldPort (w : Word) : BitVec 3 := w.extractLsb' 10 3

/-- RSV, bits 9:8. -/
def fieldRsv (w : Word) : BitVec 2 := w.extractLsb' 8 2

/-- ARG, bits 7:0. -/
def fieldArg (w : Word) : Byte := w.extractLsb' 0 8

/-- The port a PORT value names (30_encoding.md R63). -/
def portOfCode (p : BitVec 3) : Port :=
  match p.toNat with
  | 0 => .a
  | 1 => .b
  | 2 => .c
  | 3 => .cHigh
  | 4 => .cLow
  | 5 => .n5
  | 6 => .n6
  | _ => .n7

/-- The direction a bit stands for: 1 INPUT, 0 OUTPUT (30_encoding.md R65). -/
def directionOfBit (d : Bool) : Direction := if d then .input else .output

/-- What the decoder reads from a word: a command, or one of the two reasons of INVALID_OP (30_encoding.md R68). -/
inductive Decoded where
  | instr (i : Instr)
  | reservedOp   -- OP = 0b111
  | reservedRsv  -- RSV ≠ 0b00
  deriving DecidableEq, Repr

/-- The decoder (30_encoding.md R69): the tests on OP and RSV first, then the case on OP. -/
def decode (w : Word) : Decoded :=
  if fieldOp w = 7#3 then .reservedOp
  else if fieldRsv w ≠ 0#2 then .reservedRsv
  else
    match (fieldOp w).toNat with
    | 0 => .instr .init
    | 1 => .instr (.setdir (portOfCode (fieldPort w)) (directionOfBit ((fieldArg w).getLsbD 0)))
    | 2 => .instr (.pinon (portOfCode (fieldPort w)) (fieldArg w))
    | 3 => .instr (.pinoff (portOfCode (fieldPort w)) (fieldArg w))
    | 4 => .instr (.writepins (portOfCode (fieldPort w)) (fieldArg w))
    | 5 => .instr (.readpin (portOfCode (fieldPort w)) (fieldArg w))
    | 6 => .instr (.readport (portOfCode (fieldPort w)))
    | _ => .reservedOp

/-- A command word from its four fields, OP in the high bits (30_encoding.md R62). -/
def commandWord (op : BitVec 3) (port : BitVec 3) (rsv : BitVec 2) (arg : Byte) : Word :=
  op ++ port ++ rsv ++ arg

/-- The PORT value of a port (30_encoding.md R63). -/
def Port.code : Port → BitVec 3
  | .a => 0#3
  | .b => 1#3
  | .c => 2#3
  | .cHigh => 3#3
  | .cLow => 4#3
  | .n5 => 5#3
  | .n6 => 6#3
  | .n7 => 7#3

/-- The ARG byte of a direction: `0x01` INPUT, `0x00` OUTPUT (30_encoding.md R73). -/
def Direction.arg : Direction → Byte
  | .output => 0x00#8
  | .input => 0x01#8

/-- The assembler's word of an instruction; ignored fields are filled with 0 (30_encoding.md R73). -/
def encode : Instr → Word
  | .init => commandWord 0#3 0#3 0#2 0x00#8
  | .setdir g d => commandWord 1#3 g.code 0#2 d.arg
  | .pinon p m => commandWord 2#3 p.code 0#2 m
  | .pinoff p m => commandWord 3#3 p.code 0#2 m
  | .writepins p b => commandWord 4#3 p.code 0#2 b
  | .readpin p m => commandWord 5#3 p.code 0#2 m
  | .readport p => commandWord 6#3 p.code 0#2 0x00#8

/-- The instruction of a row's word, its bits numbered as spec/opcode_table.json numbers them. Every row is one
16-bit word (30_encoding.md R60, R71), presented whole, so the number is the word itself (assumption log 15). -/
def decodeTableWord (nbits w : Nat) : Option Instr :=
  if nbits ≤ 16 ∧ w < 65536 then
    match decode (BitVec.ofNat 16 w) with
    | .instr i => some i
    | .reservedOp => none
    | .reservedRsv => none
  else none

end Sys2Proof
end

