-- ==== Sys2Proof/Machine/Flags.lean ====
section
/-! DEFINITION. The only condition the block reports: the STATUS field of a response word, and the word itself
(30_encoding.md R66, R67). The block has no flags that persist (10_state.md R31). -/

namespace Sys2Proof.Machine

/-- The outcomes of a command (30_encoding.md R66, 60_exceptions.md R130). -/
inductive Status where
  | ok
  | permissionDenied
  | notReady
  | invalidPort
  | invalidOp
  deriving DecidableEq, Repr, Inhabited

/-- STATUS codes (30_encoding.md R66); 5 to 7 are never produced. -/
def statusCode : Status → BitVec 3
  | .ok => 0#3
  | .permissionDenied => 1#3
  | .notReady => 2#3
  | .invalidPort => 3#3
  | .invalidOp => 4#3

/-- The response word: five zero bits, STATUS, DATA (30_encoding.md R66). -/
def responseWord (st : Status) (data : Byte) : Word := 0#5 ++ statusCode st ++ data

/-- READPIN's DATA byte: `0x01` true, `0x00` false (30_encoding.md R67). -/
def boolData (b : Bool) : Byte := if b then 0x01#8 else 0x00#8

end Sys2Proof.Machine
end

