-- ==== Sys2Proof/Config.lean ====
section
/-! DEFINITION. The parameters the spec leaves OPEN (00_scope.md R7) and the free values (93_implementation_defined.md).
Each is a constant with no body: nothing in Lean can evaluate it, so a theorem holds for every value of it. -/

namespace Sys2Proof

/-- A register select of the internal register bus (20_memory.md R40), in the source's order. Select
values 5, 6 and 7 name no register and no rule produces them, so they have no constructor. -/
inductive Sel where
  | base   -- SEL_BASE, base-mode register
  | dir    -- SEL_DIR, direction-control register
  | dataA  -- SEL_A, data register of port A
  | dataB  -- SEL_B, data register of port B
  | dataC  -- SEL_C, data register of port C
  deriving DecidableEq, Repr, Inhabited

/-- `DATA_READ_SOURCE` (00_scope.md R7, 20_memory.md R44): what a read of a data register returns. -/
inductive ReadSource where
  | store     -- the last value written
  | external  -- a byte the pin environment supplies, fresh at every read
  deriving DecidableEq, Repr, Inhabited

/-- The privilege authority's answer to one request (40_init.md R80, R84). -/
inductive Answer where
  | grant
  | deny
  deriving DecidableEq, Repr, Inhabited

/-- One move of the block's environment: the host interactions of 70_reset_and_hazards.md R171 and the
privilege authority's answer (00_scope.md R3). -/
inductive EnvMove where
  | idle                          -- nobody does anything; an unanswered request is `idle` for ever (R165)
  | present (w : Word)            -- a host thread presents a command word
  | answer (n : Nat) (g : Answer) -- the privilege authority answers the `n`-th request (assumption log 11)
  | readResponse                  -- the host reads `rsp`
  | reset                         -- power-on, the reset input, or loss and return of power (R150)
  deriving DecidableEq, Repr, Inhabited

/-- Whose turn a step is: the block's, or the environment's with its move. Either may come at any time
(70_reset_and_hazards.md R171: reset and present "at any time"; assumption log 4). -/
inductive Turn where
  | block
  | env (m : EnvMove)
  deriving DecidableEq, Repr, Inhabited

namespace Config

/-- The board's `DATA_READ_SOURCE`, OPEN (92_eei_decisions.md D18). Assumption log 2. -/
opaque dataReadSource : ReadSource

/-- The byte of the `n`-th draw: `draw_u8()` of 20_memory.md R44, a read of an `Unwritten` cell or of a
data register under `External` (93 I1, I2). FREE VALUE, assumption log 1. -/
opaque draw : Nat → Byte

/-- The `n`-th free turn: `Schedule` and `PrivAnswer`, OPEN (00_scope.md R7, 93 I6, I7, I8). FREE VALUE,
assumption log 3. -/
opaque turn : Nat → Turn

/-- `ADDR_BASE`, `ADDR_DIR`, `ADDR_DATA_A`, `ADDR_DATA_B`, `ADDR_DATA_C`: the physical port-space address of
each register, OPEN (20_memory.md R40, 92_eei_decisions.md D17). No rule of the block reads them. Assumption log 17. -/
opaque addr : Sel → Nat

end Config

end Sys2Proof
end

