-- ==== Sys2Proof/Machine/Literals.lean ====
section
/-! DEFINITION. The configuration constants of 00_scope.md R6, each in one place. The requester calls them
unaudited and the spec takes them as normative (92_eei_decisions.md D34, 93 I4; assumption log 8). -/

namespace Sys2Proof.Machine

/-- `MODE_BYTE`: what INIT writes to the base-mode register. -/
def modeByte : Byte := 0x44#8

/-- `DIR_INIT`: what INIT writes to the direction-control register. -/
def dirInit : Byte := 0x00#8

/-- `DIRBIT(g)`: the bit of the direction-control register that governs a direction group; none for a port that is no
direction group (41_direction.md R90). Four independent arms: C_HIGH does not also reach bit 0 (R91, 90_conflicts.md C1). -/
def dirBit : Port → Option Nat
  | .a => some 4
  | .b => some 1
  | .cHigh => some 3
  | .cLow => some 0
  | .c => none
  | .n5 => none
  | .n6 => none
  | .n7 => none

end Sys2Proof.Machine
end

