-- ==== Sys2Proof/Machine/Operands.lean ====
section
/-! DEFINITION. Operand forms: the register mux and the bit-field router (00_scope.md R2), that is, which register a
PORT reaches and what a mask, a byte or a direction does to the byte read. -/

namespace Sys2Proof.Machine

/-- The 3-bit number of a select (20_memory.md R40). No rule depends on it. -/
def selCode : Sel → BitVec 3
  | .base => 0#3
  | .dir => 1#3
  | .dataA => 2#3
  | .dataB => 3#3
  | .dataC => 4#3

/-- Whether a select is one of the three data registers (20_memory.md R44). -/
def isDataSel : Sel → Bool
  | .base => false
  | .dir => false
  | .dataA => true
  | .dataB => true
  | .dataC => true

/-- `DataSel`, the data-register mux (42_pin_level.md R102): none where the port is invalid for a data command. -/
def dataSel : Port → Option Sel
  | .a => some .dataA
  | .b => some .dataB
  | .c => some .dataC
  | .cHigh => none
  | .cLow => none
  | .n5 => none
  | .n6 => none
  | .n7 => none

/-- The byte with only bit `k` set, `1 << k` (00_scope.md R8). -/
def bitMask (k : Nat) : Byte := 1#8 <<< k

/-- PINON's byte: "ORs in mask" (42_pin_level.md R100). -/
def setPins (m v : Byte) : Byte := v ||| m

/-- PINOFF's byte: "ANDs out ~mask" (42_pin_level.md R101). -/
def clearPins (m v : Byte) : Byte := v &&& ~~~m

/-- SETDIR's byte: INPUT sets bit `k`, OUTPUT clears it, every other bit stays as read (41_direction.md R90). -/
def setDirBit (k : Nat) (d : Direction) (v : Byte) : Byte :=
  match d with
  | .input => v ||| bitMask k
  | .output => v &&& ~~~(bitMask k)

/-- READPIN's test: every bit of the mask is set in the byte read (43_port_data.md R112). -/
def allSet (m v : Byte) : Bool := (v &&& m) == m

end Sys2Proof.Machine
end

