-- ==== Sys2Proof/Machine/State.lean ====
section
/-! DEFINITION. The state of the block (10_state.md), of its command port, and of the parameters and free values a
step reads; the reasons a step can stop; the state after reset. -/

namespace Sys2Proof.Machine

/-- `mode` (10_state.md R20). -/
inductive Mode where
  | uninit
  | ready
  deriving DecidableEq, Repr, Inhabited

/-- `phase`, the command port's phase (10_state.md R22). -/
inductive Phase where
  | idle
  | waitPriv
  deriving DecidableEq, Repr, Inhabited

/-- A register-file cell: `Unwritten` or `Val(v)` (10_state.md R24). `unwritten` is the spec's own state of a cell: a
read of it is a fresh draw, never a fault (20_memory.md R44). -/
inductive Cell where
  | unwritten
  | val (v : Byte)
  deriving DecidableEq, Repr, Inhabited

/-- The five registers behind the register mux (10_state.md R24 to R28), which are the whole address space
(20_memory.md R40). One field per register: no address outside the space can be listed, and equal contents are equal
data (assumption log 7). -/
structure RegFile where
  /-- `x[SEL_BASE]`, base-mode register (R25). -/
  base : Cell
  /-- `x[SEL_DIR]`, direction-control register (R26). -/
  dir : Cell
  /-- `x[SEL_A]`, data register of port A (R28). -/
  dataA : Cell
  /-- `x[SEL_B]`, data register of port B (R28). -/
  dataB : Cell
  /-- `x[SEL_C]`, data register of port C (R28). -/
  dataC : Cell
  deriving DecidableEq, Repr, Inhabited

/-- An event of the trace (00_scope.md R9, R10). -/
inductive Event where
  | privRequest
  | busRead (s : Sel) (v : Byte)
  | busWrite (s : Sel) (v : Byte)
  deriving DecidableEq, Repr, Inhabited

/-- Everything the spec gives the machine (INVENTORY.md, State). -/
structure State where
  /-- UNINIT or READY (10_state.md R20). -/
  mode : Mode
  /-- IDLE or WAIT_PRIV (10_state.md R22). -/
  phase : Phase
  /-- The response register, `None` or a response word (10_state.md R23). -/
  rsp : Option Word
  /-- The register file `x[.]` (10_state.md R24). -/
  x : RegFile
  /-- The event trace, oldest first (00_scope.md R10). -/
  trace : List Event
  /-- The sequence of responses given on the command port, oldest first (00_scope.md R10; assumption log 12). -/
  responses : List Word
  /-- Command words presented and not yet accepted, in the order they will be (30_encoding.md R61, 60_exceptions.md
  R140; assumption log 5). -/
  held : List Word
  /-- `DATA_READ_SOURCE` (00_scope.md R7; assumption log 2). No step changes it. -/
  readSource : ReadSource
  /-- MODEL'S OWN: how many privilege requests have been made, which is the number of the latest one. An answer names
  the request it answers, so that the answer to a request a reset abandoned is told from the answer to a later one
  (70_reset_and_hazards.md R150; assumption log 11). -/
  requests : Nat
  /-- The coming turns that are laid down as data; after them come the free turns (assumption log 3). -/
  schedule : List Turn
  /-- MODEL'S OWN: how many free turns have been taken from `Config.turn`. -/
  turns : Nat
  /-- MODEL'S OWN: how many bytes have been drawn from `Config.draw`. -/
  draws : Nat
  deriving DecidableEq, Repr

/-- Why the machine stops with a fault: for no reason. The block has no trap and no fault state, and its registers never
fail (60_exceptions.md R133, R137; 93 I14), so the type has no constructor and no step can raise one (assumption log 16). -/
inductive Fault where
  deriving DecidableEq, Repr

/-- Why a step has no meaning. -/
inductive Refusal where
  /-- An instruction with no meaning yet, raised by an arm of `exec` alone. No arm raises it now: every command of the
  opcode table has its meaning. Raising it would be safe, since the machine would stop where the hardware goes on. -/
  | notModelled (mnemonic : String)
  deriving DecidableEq, Repr

/-- Every cell `Unwritten` (10_state.md R34). -/
def RegFile.unwritten : RegFile :=
  { base := .unwritten, dir := .unwritten, dataA := .unwritten, dataB := .unwritten, dataC := .unwritten }

/-- The machine right after reset (10_state.md R34, 70_reset_and_hazards.md R150). The last seven fields are no state of
the block: nothing is presented, the board's read source is whatever it is, no request has been made, every turn is free,
no value has been drawn; and `responses` starts empty (assumption logs 1, 2, 3, 5, 11, 12). -/
def State.reset : State :=
  { mode := .uninit
    phase := .idle
    rsp := none
    x := RegFile.unwritten
    trace := []
    responses := []
    held := []
    readSource := Config.dataReadSource
    requests := 0
    schedule := []
    turns := 0
    draws := 0 }

end Sys2Proof.Machine
end

