-- ==== Sys2Proof/Machine/Ops.lean ====
section
/-! DEFINITION. The primitives of 00_scope.md R9 over the state: the register bus (20_memory.md R44, R45), the privilege
request, the response, and `raise`, the one way an error is taken. The block has no traps and nothing to
return from (60_exceptions.md R133, R134). Then the shared shapes of the commands. -/

namespace Sys2Proof.Machine

/-- `x[s]` (00_scope.md R9). -/
def RegFile.get (x : RegFile) : Sel → Cell
  | .base => x.base
  | .dir => x.dir
  | .dataA => x.dataA
  | .dataB => x.dataB
  | .dataC => x.dataC

/-- `x[s] <- v` (00_scope.md R9): no other cell changes (20_memory.md R45). -/
def RegFile.set (x : RegFile) (s : Sel) (v : Byte) : RegFile :=
  match s with
  | .base => { x with base := .val v }
  | .dir => { x with dir := .val v }
  | .dataA => { x with dataA := .val v }
  | .dataB => { x with dataB := .val v }
  | .dataC => { x with dataC := .val v }

/-- Records an event at the end of the trace (00_scope.md R9, R10). -/
def record (e : Event) (s : State) : State := { s with trace := s.trace ++ [e] }

/-- `draw_u8()`: a fresh free byte (20_memory.md R44; assumption log 1). -/
def drawByte (s : State) : Byte × State := (Config.draw s.draws, { s with draws := s.draws + 1 })

/-- The byte a read of a select returns, before its event is recorded (20_memory.md R44). -/
def readValue (sel : Sel) (s : State) : Byte × State :=
  if isDataSel sel = true ∧ s.readSource = .external then drawByte s
  else
    match s.x.get sel with
    | .val w => (w, s)
    | .unwritten => drawByte s

/-- `MemRead(s, 1)` (20_memory.md R44). -/
def memRead (sel : Sel) (s : State) : Byte × State :=
  ((readValue sel s).1, record (.busRead sel (readValue sel s).1) (readValue sel s).2)

/-- `MemWrite(s, 1, v)` (20_memory.md R45). -/
def memWrite (sel : Sel) (v : Byte) (s : State) : State :=
  record (.busWrite sel v) { s with x := s.x.set sel v }

/-- `PrivRequest()`: records the request and waits for its answer (00_scope.md R9, 40_init.md R80). -/
def privRequest (s : State) : State :=
  { record .privRequest s with phase := .waitPriv, requests := s.requests + 1 }

/-- A response word is given: it overwrites `rsp` (10_state.md R23) and extends the sequence of responses (00_scope.md R10). -/
def giveResponse (w : Word) (s : State) : State := { s with rsp := some w, responses := s.responses ++ [w] }

/-- `respond(status, data)` (00_scope.md R9, 30_encoding.md R66). -/
def respond (st : Status) (data : Byte) (s : State) : State := giveResponse (responseWord st data) s

/-- `raise S`: an error status with DATA `0x00`, and nothing else (00_scope.md R9, 60_exceptions.md R132). -/
def raiseStatus (st : Status) (s : State) : State := respond st 0x00#8 s

/-- The mode gate (30_encoding.md R69): every command but INIT is answered NOT_READY in UNINIT. -/
def whenReady (s : State) (body : State → State) : State :=
  match s.mode with
  | .uninit => raiseStatus .notReady s
  | .ready => body s

/-- A data command: the mode gate, then `DataSel`, then the command on the register selected (42_pin_level.md R102). -/
def dataCommand (port : Port) (body : Sel → State → State) (s : State) : State :=
  whenReady s fun s =>
    match dataSel port with
    | none => raiseStatus .invalidPort s
    | some sel => body sel s

/-- Read-modify-write of one register: always both accesses, the read first (20_memory.md R48, R49; 92 D29). -/
def readModifyWrite (f : Byte → Byte) (sel : Sel) (s : State) : State :=
  respond .ok 0x00#8 (memWrite sel (f (memRead sel s).1) (memRead sel s).2)

/-- A read that answers with a byte made from the byte read (43_port_data.md R112, R114). -/
def readAndRespond (f : Byte → Byte) (sel : Sel) (s : State) : State :=
  respond .ok (f (memRead sel s).1) (memRead sel s).2

end Sys2Proof.Machine
end

