-- ==== Sys2Proof/Machine/Direction.lean ====
section
/-! DEFINITION. SETDIR (41_direction.md). -/

namespace Sys2Proof.Machine

/-- SETDIR (41_direction.md R90): one bit of the direction-control register set or cleared by read-modify-write; a port
that is no direction group is answered INVALID_PORT with no bus access (R92). -/
def execSetdir (group : Port) (dir : Direction) (s : State) : Host.Outcome State Fault Refusal :=
  .next (whenReady s fun s =>
    match dirBit group with
    | none => raiseStatus .invalidPort s
    | some k => readModifyWrite (setDirBit k dir) .dir s)

end Sys2Proof.Machine
end

