-- ==== Sys2Proof/Machine/Init.lean ====
section
/-! DEFINITION. INIT (40_init.md): the request, which is what the command itself does, and the answer, which
the privilege authority's move brings. -/

namespace Sys2Proof.Machine

/-- INIT, transition 1 (40_init.md R80), in either mode (R81): the request is recorded and the port waits. -/
def execInit (s : State) : Host.Outcome State Fault Refusal := .next (privRequest s)

/-- INIT, transition 2 (40_init.md R80, R81): the answer comes. On DENY nothing changes but the phase and the response; on GRANT
the base-mode byte is written, then the direction byte, and the block is READY. -/
def initAnswer (g : Answer) (s : State) : State :=
  match g with
  | .deny => raiseStatus .permissionDenied { s with phase := .idle }
  | .grant =>
    respond .ok 0x00#8
      { memWrite .dir dirInit (memWrite .base modeByte { s with phase := .idle }) with mode := .ready }

end Sys2Proof.Machine
end

