-- ==== Sys2Proof/Machine/PinLevel.lean ====
section
/-! DEFINITION. PINON and PINOFF (42_pin_level.md). -/

namespace Sys2Proof.Machine

/-- PINON (42_pin_level.md R100). -/
def execPinon (port : Port) (mask : Byte) (s : State) : Host.Outcome State Fault Refusal :=
  .next (dataCommand port (readModifyWrite (setPins mask)) s)

/-- PINOFF (42_pin_level.md R101). -/
def execPinoff (port : Port) (mask : Byte) (s : State) : Host.Outcome State Fault Refusal :=
  .next (dataCommand port (readModifyWrite (clearPins mask)) s)

end Sys2Proof.Machine
end

