-- ==== Sys2Proof/Machine/PortData.lean ====
section
/-! DEFINITION. WRITEPINS, READPIN and READPORT (43_port_data.md). -/

namespace Sys2Proof.Machine

/-- WRITEPINS (43_port_data.md R110): no read. -/
def execWritepins (port : Port) (byte : Byte) (s : State) : Host.Outcome State Fault Refusal :=
  .next (dataCommand port (fun sel s => respond .ok 0x00#8 (memWrite sel byte s)) s)

/-- READPIN (43_port_data.md R112): true when every bit of the mask is set in the byte read. -/
def execReadpin (port : Port) (mask : Byte) (s : State) : Host.Outcome State Fault Refusal :=
  .next (dataCommand port (readAndRespond fun v => boolData (allSet mask v)) s)

/-- READPORT (43_port_data.md R114): the raw register byte. -/
def execReadport (port : Port) (s : State) : Host.Outcome State Fault Refusal :=
  .next (dataCommand port (readAndRespond fun v => v) s)

end Sys2Proof.Machine
end

