-- ==== Sys2Proof/Machine/Dispatch.lean ====
section
/-! DEFINITION. The dispatch of 30_encoding.md R69: one arm per command, each one call of its meaning. -/

namespace Sys2Proof.Machine

def exec (i : Instr) (s : State) : Host.Outcome State Fault Refusal :=
  match i with
  | .init => Sys2Proof.Machine.execInit s
  | .setdir group dir => Sys2Proof.Machine.execSetdir group dir s
  | .pinon port mask => Sys2Proof.Machine.execPinon port mask s
  | .pinoff port mask => Sys2Proof.Machine.execPinoff port mask s
  | .writepins port byte => Sys2Proof.Machine.execWritepins port byte s
  | .readpin port mask => Sys2Proof.Machine.execReadpin port mask s
  | .readport port => Sys2Proof.Machine.execReadport port s

end Sys2Proof.Machine
end

