-- ==== Sys2Proof/Machine/Port.lean ====
section
/-! DEFINITION. The command port and the environment around a command: accepting a presented word (30_encoding.md R61), answering
an illegal one (R68), the environment's moves (70_reset_and_hazards.md R171): presenting a word, the privilege answer,
reading the response, a reset; and whose turn a step is. -/

namespace Sys2Proof.Machine

/-- The command the port accepts now, and the state once it is taken off the port: the first word held, when the phase is
IDLE (30_encoding.md R61). While the phase is WAIT_PRIV no word is accepted (10_state.md R22). -/
def acceptCommand (s : State) : Option (Word × State) :=
  match s.phase with
  | .waitPriv => none
  | .idle =>
    match s.held with
    | [] => none
    | w :: rest => some (w, { s with held := rest })

/-- An illegal word: INVALID_OP in every mode, and no other effect (30_encoding.md R68). -/
def rejectWord (s : State) : State := raiseStatus .invalidOp s

/-- A reset of the block (70_reset_and_hazards.md R150): the block's state takes the values of 10_state.md R34. What the
hosts hold, the read source, the environment and the counts of requests and draws are no state of the block and stay
(assumption log 6). A pending request is abandoned: the block no longer waits for it. -/
def hardReset (s : State) : State :=
  { s with
    mode := .uninit
    phase := .idle
    rsp := none
    x := RegFile.unwritten
    trace := []
    responses := [] }

/-- The answer to the `n`-th request: it completes the INIT that waits for it, whose request is the latest one made
(40_init.md R80). Every other answer is ignored, in either phase: its request was abandoned by a reset or has its answer
already (70_reset_and_hazards.md R150, 40_init.md R84; assumption log 11). -/
def takeAnswer (n : Nat) (g : Answer) (s : State) : State :=
  match s.phase with
  | .waitPriv => if n = s.requests then initAnswer g s else s
  | .idle => s

/-- What one move of the environment does (70_reset_and_hazards.md R171). -/
def applyMove (m : EnvMove) (s : State) : State :=
  match m with
  | .idle => s
  | .present w => { s with held := s.held ++ [w] }
  | .answer n g => takeAnswer n g s
  | .readResponse => s
  | .reset => hardReset s

/-- Whose turn comes now, and the state once it is taken: from the schedule while that lasts, then a free value
(00_scope.md R7 `Schedule`, `PrivAnswer`; assumption logs 3, 4). -/
def takeTurn (s : State) : Turn × State :=
  match s.schedule with
  | m :: rest => (m, { s with schedule := rest })
  | [] => (Config.turn s.turns, { s with turns := s.turns + 1 })

end Sys2Proof.Machine
end

