-- ==== Sys2Proof/Machine/Block.lean ====
section
/-! DEFINITION. The block's turn: it accepts the command presented, decodes it and executes it (30_encoding.md R61, R69). -/

namespace Sys2Proof.Machine

/-- The block's turn. Accepting and executing a command is one transition (20_memory.md R48). Where the block can accept
none (it waits for a privilege answer, or no word is presented) it does nothing (00_scope.md R3, 10_state.md R22). -/
def blockTurn (s : State) : Host.Outcome State Fault Refusal :=
  match acceptCommand s with
  | none => .next s
  | some (w, s') =>
    match decode w with
    | .instr i => exec i s'
    | .reservedOp => .next (rejectWord s')
    | .reservedRsv => .next (rejectWord s')

end Sys2Proof.Machine
end

