-- ==== Sys2Proof/Machine/Step.lean ====
section
/-! DEFINITION. One step of the machine: a turn of the block or a move of its environment, whichever comes. -/

namespace Sys2Proof.Machine

/-- One step. Either agent's turn may come in any state (70_reset_and_hazards.md R171; assumption log 4). INIT's second
transition is the step in which its answer comes (40_init.md R80). -/
def step (s : State) : Host.Outcome State Fault Refusal :=
  match (takeTurn s).1 with
  | .block => blockTurn (takeTurn s).2
  | .env m => .next (applyMove m (takeTurn s).2)

/-- `s` with the word presented first at the command port, the port accepting and the turn the block's, so that the very
next step runs it: the block fetches nothing, its commands come from the host (20_memory.md R52; assumption log 21). -/
def State.withFetchWord (s : State) (_nbits w : Nat) : State :=
  { s with phase := .idle, held := BitVec.ofNat 16 w :: s.held, schedule := .block :: s.schedule }

end Sys2Proof.Machine
end

