-- ==== Sys2Proof/Safety.lean ====
section
/-! DEFINITION. What claims about the machine are stated in: the outcome of a register read, what a response leaves, the
fields of a response word, what a trace says of the registers, and the invariants of 10_state.md. -/

namespace Sys2Proof.Machine

/-- The reads that return a draw (20_memory.md R44): of a data register under `External`, and of an `Unwritten` cell. -/
def DrawnRead (s : State) (sel : Sel) : Prop :=
  ((sel = .dataA ∨ sel = .dataB ∨ sel = .dataC) ∧ s.readSource = .external) ∨ s.x.get sel = .unwritten

/-- A read of `sel` in `s` returns `v` and leaves the draw counter at `n` (20_memory.md R44). -/
def ReadOutcome (s : State) (sel : Sel) (v : Byte) (n : Nat) : Prop :=
  (DrawnRead s sel ∧ v = Config.draw s.draws ∧ n = s.draws + 1) ∨
    (¬ DrawnRead s sel ∧ s.x.get sel = .val v ∧ n = s.draws)

/-- `s` after the response word `w` and no other effect (10_state.md R23, 60_exceptions.md R132). -/
def answered (w : Word) (s : State) : State := { s with rsp := some w, responses := s.responses ++ [w] }

/-- It is the block's turn in `s`, it accepts the word `w`, and `rest` is what stays held (30_encoding.md R61). -/
def Accepts (s : State) (w : Word) (rest : List Word) : Prop :=
  (takeTurn s).1 = .block ∧ s.phase = .idle ∧ s.held = w :: rest

/-- It is the environment's turn in `s`, and it makes the move `m` (70_reset_and_hazards.md R171; assumption log 4). -/
def Moves (s : State) (m : EnvMove) : Prop := (takeTurn s).1 = .env m

/-- In `s` the block waits for a privilege answer, and the answer to its request comes (40_init.md R80). The request that waits
is the latest one made (assumption log 11). -/
def Answers (s : State) (g : Answer) : Prop := s.phase = .waitPriv ∧ Moves s (.answer s.requests g)

/-- STATUS of a response word (30_encoding.md R66). -/
def statusField (r : Word) : BitVec 3 := r.extractLsb' 8 3

/-- DATA of a response word (30_encoding.md R66). -/
def dataField (r : Word) : Byte := r.extractLsb' 0 8

/-- A word the response format allows: five zero bits, a STATUS that is produced, and DATA `0x00` with every error
(30_encoding.md R66, R67). -/
def LegalResponse (r : Word) : Prop :=
  r.extractLsb' 11 5 = 0#5 ∧ (statusField r).toNat ≤ 4 ∧ (statusField r ≠ 0#3 → dataField r = 0x00#8)

/-- The register a data command reaches (10_state.md R29, 42_pin_level.md R102). -/
def Routes (p : Port) (sel : Sel) : Prop :=
  (p = .a ∧ sel = .dataA) ∨ (p = .b ∧ sel = .dataB) ∨ (p = .c ∧ sel = .dataC)

/-- The direction-register bit of a direction group (10_state.md R26, 41_direction.md R90). -/
def GroupBit (g : Port) (k : Nat) : Prop :=
  (g = .a ∧ k = 4) ∨ (g = .b ∧ k = 1) ∨ (g = .cHigh ∧ k = 3) ∨ (g = .cLow ∧ k = 0)

/-- The words of one row of the opcode map (30_encoding.md R72), with the row's operands, and what a word with the row's OP and
a nonzero RSV is answered (R68). -/
def RowDecodes (matchValue : Word) (op : BitVec 3) (i : Port → Byte → Instr) : Prop :=
  (∀ (w : Word) (p : Port), w &&& 0xE300#16 = matchValue → w.extractLsb' 10 3 = p.code →
      decode w = .instr (i p (w.extractLsb' 0 8))) ∧
    ∀ (s : State) (w : Word) (rest : List Word), Accepts s w rest → w.extractLsb' 13 3 = op → w.extractLsb' 8 2 ≠ 0#2 →
      step s = .next (answered 0x0400#16 { (takeTurn s).2 with held := rest })

/-- A command that is answered NOT_READY in UNINIT, and INVALID_PORT in READY where its port is not valid, with no other
effect (60_exceptions.md R130, R132). -/
def Gated (i : Instr) (valid : Bool) : Prop :=
  ∀ s : State,
    (s.mode = .uninit → exec i s = .next (answered 0x0200#16 s)) ∧
      (s.mode = .ready → valid = false → exec i s = .next (answered 0x0300#16 s))

/-- The five data commands (30_encoding.md R63). -/
def DataCommand (i : Instr) : Prop :=
  ∃ p m, i = .pinon p m ∨ i = .pinoff p m ∨ i = .writepins p m ∨ i = .readpin p m ∨ i = .readport p

/-- The registers a command may reach (10_state.md R29). -/
def Reaches : Instr → Sel → Prop
  | .init, sel => sel = .base ∨ sel = .dir
  | .setdir _ _, sel => sel = .dir
  | .pinon p _, sel => Routes p sel
  | .pinoff p _, sel => Routes p sel
  | .writepins p _, sel => Routes p sel
  | .readpin p _, sel => Routes p sel
  | .readport p, sel => Routes p sel

/-- What the last write of a select in a trace left in its cell. -/
def lastWrite (sel : Sel) (tr : List Event) : Cell :=
  tr.foldl (fun c e =>
    match e with
    | .privRequest => c
    | .busRead _ _ => c
    | .busWrite t v => if t = sel then .val v else c) .unwritten

/-- In the trace `tr` every read that reads back (every read under `Store`, every base or direction read) returns what the
last write of its register before it wrote, when there is one (20_memory.md R44, R49). -/
def ReadsBack (src : ReadSource) (tr : List Event) : Prop :=
  ∀ (before after : List Event) (sel : Sel) (v w : Byte),
    tr = before ++ .busRead sel v :: after →
    (src = .store ∨ sel = .base ∨ sel = .dir) → lastWrite sel before = .val w → v = w

/-- 10_state.md R30: in READY the base-mode and direction registers have been written. -/
def ReadyRegistersWritten (s : State) : Prop :=
  s.mode = .ready → (∃ v, s.x.get .base = .val v) ∧ ∃ v, s.x.get .dir = .val v

/-- 10_state.md R35: in READY the direction register's bits 7, 6, 5 and 2 are 0. -/
def UnassignedDirBitsZero (s : State) : Prop :=
  s.mode = .ready → ∃ v, s.x.get .dir = .val v ∧ v &&& 0xE4#8 = 0x00#8

/-- The registers hold what the trace's writes left (10_state.md R24, 20_memory.md R45). -/
def RegistersMatchTrace (s : State) : Prop := ∀ sel, s.x.get sel = lastWrite sel s.trace

/-- In UNINIT no register has been reached since the last reset (60_exceptions.md R138). -/
def UninitReachesNothing (s : State) : Prop :=
  s.mode = .uninit → (∀ sel, s.x.get sel = .unwritten) ∧ ∀ e ∈ s.trace, e = .privRequest

/-- While the port waits, the request is the trace's last event (40_init.md R80, 10_state.md R22). -/
def PendingRequestIsLast (s : State) : Prop := s.phase = .waitPriv → s.trace.getLast? = some .privRequest

/-- Every response given is legal, and the response register holds the last one (30_encoding.md R66, 10_state.md R23). -/
def ResponsesLegal (s : State) : Prop :=
  (∀ r ∈ s.responses, LegalResponse r) ∧ s.rsp = s.responses.getLast?

/-- The trace agrees with the registers, and its reads read back (20_memory.md R49). -/
def TraceConsistent (s : State) : Prop := RegistersMatchTrace s ∧ ReadsBack s.readSource s.trace

end Sys2Proof.Machine
end

