-- ==== Sys2Proof/Certificates/Slice0/Obligations.lean ====
section
/-! DEFINITION. The statements about the machine, from the spec's numbered rules. Each docstring names the rule. -/

open Sys2Proof Sys2Proof.Machine

/-! ## Reset -/

/-- 10_state.md R34: what reset leaves, and that every read of a register is then a fresh draw. -/
def Obligations.ResetLeavesTheSpecifiedState : Prop :=
  State.reset.mode = .uninit ∧ State.reset.phase = .idle ∧ State.reset.rsp = none ∧
    (∀ sel, State.reset.x.get sel = .unwritten) ∧ State.reset.trace = [] ∧
      ∀ sel, (memRead sel State.reset).1 = Config.draw State.reset.draws ∧
        (memRead sel (memRead sel State.reset).2).1 = Config.draw (State.reset.draws + 1)

/-- 10_state.md R34 (70_reset_and_hazards.md R150): a reset may come in any state, in either phase and whatever words are held,
and it puts every piece of the block's state at its reset value; every read of a register is then a fresh draw. -/
def Obligations.ResetInAnyStateRestoresResetValues : Prop :=
  ∀ s, Moves s .reset →
    ∃ t, step s = .next t ∧ t.mode = .uninit ∧ t.phase = .idle ∧ t.rsp = none ∧
      (∀ sel, t.x.get sel = .unwritten) ∧ t.trace = [] ∧
        ∀ sel, (memRead sel t).1 = Config.draw t.draws ∧
          (memRead sel (memRead sel t).2).1 = Config.draw (t.draws + 1)

/-- 70_reset_and_hazards.md R150: the whole next state of a reset. What R34 does not list is as the turn left it: the words
held, the read source, the schedule and the counts of requests, turns and draws (so no draw comes twice). That those stay
is the model's choice (assumption log 6), and that the record of responses is emptied too (assumption log 12). -/
def Obligations.ResetChangesNothingElse : Prop :=
  (∀ s, applyMove .reset s =
      { s with mode := .uninit, phase := .idle, rsp := none, x := State.reset.x, trace := [], responses := [] }) ∧
    ∀ s, Moves s .reset → step s = .next (applyMove .reset (takeTurn s).2)

/-- 70_reset_and_hazards.md R150: the answer to a request that a reset abandoned is ignored, whenever it comes, in IDLE and
while a later INIT waits. That an answer names its request by number, so that the two are told apart, is the model's choice
(assumption log 11); so is that every other answer to no pending request is ignored as well. -/
def Obligations.AbandonedRequestsAnswerIsIgnored : Prop :=
  (∀ (n : Nat) (s u v : State), s.phase = .waitPriv → Moves s .reset → step s = .next u →
      Sys2Proof.core.run n u = .next v → ∀ g, Moves v (.answer s.requests g) → step v = .next (takeTurn v).2) ∧
    ∀ s n g, Moves s (.answer n g) → (s.phase = .waitPriv → n ≠ s.requests) → step s = .next (takeTurn s).2

/-- Each invariant stated below holds at reset (10_state.md R30, R35, R34). -/
def Obligations.InvariantsHoldAtReset : Prop :=
  ReadyRegistersWritten State.reset ∧ UnassignedDirBitsZero State.reset ∧ TraceConsistent State.reset ∧
    ResponsesLegal State.reset ∧ UninitReachesNothing State.reset ∧ PendingRequestIsLast State.reset

/-! ## The register bus -/

/-- 20_memory.md R44: a read of a data register under `External`, and of an `Unwritten` cell, returns the next draw (so two
such reads return two draws); every other read returns the byte stored; the event is recorded. -/
def Obligations.RegisterReadReturnsStoredByteOrDraw : Prop :=
  ∀ s sel,
    (((sel = .dataA ∨ sel = .dataB ∨ sel = .dataC) ∧ s.readSource = .external ∨ s.x.get sel = .unwritten) →
        memRead sel s =
          (Config.draw s.draws,
            { s with trace := s.trace ++ [.busRead sel (Config.draw s.draws)], draws := s.draws + 1 })) ∧
      ∀ w, (sel = .base ∨ sel = .dir ∨ s.readSource = .store) → s.x.get sel = .val w →
        memRead sel s = (w, { s with trace := s.trace ++ [.busRead sel w] })

/-- 20_memory.md R44 ("two draws are independent"): a step that makes a drawn read (it is then the step's one read) returns the
draw of the count, leaves the count one higher, and in every state of the run after it the count is above the draw given;
so no draw is given twice, across resets too. A step that makes no drawn read keeps the count, and over any run it never
goes down. The count is the model's (assumption log 1). -/
def Obligations.DrawsAreNeverGivenTwice : Prop :=
  (∀ s t before after sel v, step s = .next t → t.trace = s.trace ++ (before ++ .busRead sel v :: after) →
      DrawnRead s sel →
        v = Config.draw s.draws ∧ t.draws = s.draws + 1 ∧ (∀ u w, .busRead u w ∉ before ++ after) ∧
          ∀ (n : Nat) (u : State), Sys2Proof.core.run n t = .next u → s.draws < u.draws) ∧
    (∀ s t es, step s = .next t → t.trace = s.trace ++ es → (∀ sel v, .busRead sel v ∈ es → ¬ DrawnRead s sel) →
      t.draws = s.draws) ∧
      (∀ (n : Nat) (s t : State), Sys2Proof.core.run n s = .next t → s.draws ≤ t.draws) ∧
        ∀ s sel, DrawnRead s sel →
          (memRead sel s).1 = Config.draw s.draws ∧ (memRead sel s).2.draws = s.draws + 1

/-- 20_memory.md R46: a read changes no cell, no mode and no phase, it only records its event (and, in the model, may use a
draw); a read of a written cell under `Store` is idempotent; two drawn reads return two draws. -/
def Obligations.RegisterReadHasNoSideEffect : Prop :=
  ∀ s sel,
    (∃ v n, memRead sel s = (v, { s with trace := s.trace ++ [.busRead sel v], draws := n })) ∧
      (∀ w, s.readSource = .store → s.x.get sel = .val w →
        (memRead sel s).1 = w ∧ (memRead sel (memRead sel s).2).1 = w) ∧
        (DrawnRead s sel →
          (memRead sel s).1 = Config.draw s.draws ∧ (memRead sel (memRead sel s).2).1 = Config.draw (s.draws + 1))

/-- 20_memory.md R45: a write records its event and sets the cell at once; no other cell and nothing else changes. -/
def Obligations.RegisterWriteTakesEffectAtOnce : Prop :=
  ∀ s sel v,
    (memWrite sel v s).x.get sel = .val v ∧
      (∀ u, u ≠ sel → (memWrite sel v s).x.get u = s.x.get u) ∧
        (memWrite sel v s).trace = s.trace ++ [.busWrite sel v] ∧
          { memWrite sel v s with x := s.x, trace := s.trace } = s

/-! ## Encoding and decoding -/

/-- Words of 95_test_vectors.md §2.1, decoded. -/
def Obligations.SpecWordsDecode : Prop :=
  decode 0x1CFF#16 = .instr .init ∧ decode 0x20FE#16 = .instr (.setdir .a .output) ∧
    decode 0x3001#16 = .instr (.setdir .cLow .input) ∧ decode 0x400F#16 = .instr (.pinon .a 0x0F#8) ∧
      decode 0x6481#16 = .instr (.pinoff .b 0x81#8) ∧ decode 0x8CFF#16 = .instr (.writepins .cHigh 0xFF#8) ∧
        decode 0xA801#16 = .instr (.readpin .c 0x01#8) ∧ decode 0xC4FF#16 = .instr (.readport .b) ∧
          decode 0x4300#16 = .reservedRsv ∧ decode 0xE000#16 = .reservedOp

/-- Decoding an encoded instruction gives it back, for every instruction and every operand (30_encoding.md R62 to R65, R72). -/
def Obligations.DecodeOfEncodeIsIdentity : Prop :=
  ∀ i : Instr, i.wellFormed = true → decode (encode i) = .instr i

/-- 30_encoding.md R72: a word lies in a row exactly when it decodes to the row's command, so the rows are disjoint, and a word
outside them all is answered INVALID_OP. -/
def Obligations.OpcodeMapRowsDecideTheCommand : Prop :=
  (∀ w : Word,
      (w &&& 0xE300#16 = 0x0000#16 ↔ decode w = .instr .init) ∧
      (w &&& 0xE300#16 = 0x2000#16 ↔ ∃ g d, decode w = .instr (.setdir g d)) ∧
      (w &&& 0xE300#16 = 0x4000#16 ↔ ∃ p m, decode w = .instr (.pinon p m)) ∧
      (w &&& 0xE300#16 = 0x6000#16 ↔ ∃ p m, decode w = .instr (.pinoff p m)) ∧
      (w &&& 0xE300#16 = 0x8000#16 ↔ ∃ p b, decode w = .instr (.writepins p b)) ∧
      (w &&& 0xE300#16 = 0xA000#16 ↔ ∃ p m, decode w = .instr (.readpin p m)) ∧
      (w &&& 0xE300#16 = 0xC000#16 ↔ ∃ p, decode w = .instr (.readport p))) ∧
    ∀ s w rest, Accepts s w rest →
      (∀ m ∈ [0x0000#16, 0x2000#16, 0x4000#16, 0x6000#16, 0x8000#16, 0xA000#16, 0xC000#16], w &&& 0xE300#16 ≠ m) →
      step s = .next (answered 0x0400#16 { (takeTurn s).2 with held := rest })

/-- 30_encoding.md R70: the operands of a word. `port` is PORT through the numbering of R63, mask and byte are ARG unchanged, the
direction is bit 0; the fields a command ignores do not matter. -/
def Obligations.OperandsAreTakenFromTheirFields : Prop :=
  ∀ (n : Nat) (p : Port) (arg : Byte),
    (n, p) ∈ [(0, Port.a), (1, .b), (2, .c), (3, .cHigh), (4, .cLow), (5, .n5), (6, .n6), (7, .n7)] →
      decode (0#3 ++ BitVec.ofNat 3 n ++ 0#2 ++ arg) = .instr .init ∧
      decode (1#3 ++ BitVec.ofNat 3 n ++ 0#2 ++ arg) = .instr (.setdir p (if arg.getLsbD 0 then .input else .output)) ∧
      decode (2#3 ++ BitVec.ofNat 3 n ++ 0#2 ++ arg) = .instr (.pinon p arg) ∧
      decode (3#3 ++ BitVec.ofNat 3 n ++ 0#2 ++ arg) = .instr (.pinoff p arg) ∧
      decode (4#3 ++ BitVec.ofNat 3 n ++ 0#2 ++ arg) = .instr (.writepins p arg) ∧
      decode (5#3 ++ BitVec.ofNat 3 n ++ 0#2 ++ arg) = .instr (.readpin p arg) ∧
      decode (6#3 ++ BitVec.ofNat 3 n ++ 0#2 ++ arg) = .instr (.readport p)

/-! ## The step -/

/-- A step at which the block accepts a word that decodes to `i` is `exec i`, on the state with the turn taken and the word
taken off the port. -/
def Obligations.StepRunsTheDecodedCommand : Prop :=
  ∀ s w rest i, Accepts s w rest → decode w = .instr i → i.wellFormed = true →
    step s = exec i { (takeTurn s).2 with held := rest }

/-- 70_reset_and_hazards.md R171: the environment may move in any state, in either phase and whatever words are held: nothing,
the response read, a word presented and held. (The moves `answer` and `reset` are stated with INIT and with reset.) A turn
of the block in which it can accept nothing changes nothing (R22, 00_scope.md R3). Whose turn comes is the schedule's head
while it lasts and then a free value, which the taking alone moves on: the form of this, and that words are held in the
order presented, is the model's choice (assumption logs 3, 4, 5). -/
def Obligations.EnvironmentMovesAtAnyTime : Prop :=
  (∀ s,
      (Moves s .idle → step s = .next (takeTurn s).2) ∧
      (Moves s .readResponse → step s = .next (takeTurn s).2) ∧
      (∀ w, Moves s (.present w) → step s = .next { (takeTurn s).2 with held := s.held ++ [w] }) ∧
      ((takeTurn s).1 = .block → (s.phase = .waitPriv ∨ s.held = []) → step s = .next (takeTurn s).2)) ∧
    (∀ s m ms, s.schedule = m :: ms → takeTurn s = (m, { s with schedule := ms })) ∧
      ∀ s, s.schedule = [] → takeTurn s = (Config.turn s.turns, { s with turns := s.turns + 1 })

/-- No step of any kind ends in a fault or a refusal: the registers never fail, the block has no trap and no fault state, an
illegal word is answered, and an unanswered request is a run that goes on (60_exceptions.md R133, R137, 30_encoding.md R68,
70_reset_and_hazards.md R165). That the machine never stops is read from these rules (assumption log 16). -/
def Obligations.EveryStepAnswersANextState : Prop :=
  ∀ s, ∃ t, step s = .next t

/-- 30_encoding.md R61: a word is accepted only in IDLE, and executed in the same step; every accepted word but a legal INIT is
answered with exactly one response in that step; INIT is answered with exactly one when its answer arrives; in WAIT_PRIV the
block's turn does nothing, no held word is taken, and one presented is only held. That the words held are kept in the order
presented is the model's choice (assumption log 5), and that they outlive a reset too (assumption log 6). -/
def Obligations.PortTakesOneCommandAtATime : Prop :=
  (∀ s w rest, Accepts s w rest → decode w ≠ .instr .init →
      ∃ t r, step s = .next t ∧ t.phase = .idle ∧ t.held = rest ∧ t.rsp = some r ∧ t.responses = s.responses ++ [r]) ∧
  (∀ s w rest, Accepts s w rest → decode w = .instr .init →
      ∃ t, step s = .next t ∧ t.phase = .waitPriv ∧ t.held = rest ∧ t.rsp = s.rsp ∧ t.responses = s.responses) ∧
  (∀ s g, Answers s g →
      ∃ t r, step s = .next t ∧ t.phase = .idle ∧ t.held = s.held ∧ t.rsp = some r ∧ t.responses = s.responses ++ [r]) ∧
  (∀ s, s.phase = .waitPriv → (takeTurn s).1 = .block → step s = .next (takeTurn s).2) ∧
  (∀ s t, step s = .next t → s.phase = .waitPriv → ∃ ws, t.held = s.held ++ ws) ∧
  ∀ s w, s.phase = .waitPriv → Moves s (.present w) →
      step s = .next { (takeTurn s).2 with held := s.held ++ [w] }

/-- 70_reset_and_hazards.md R165: as long as no answer to its request (and no reset) comes, the block stays in WAIT_PRIV, accepts
nothing and changes nothing, however many steps go by. -/
def Obligations.UnansweredInitHangsThePort : Prop :=
  ∀ (n : Nat) (s : State), s.phase = .waitPriv →
    (∀ k u, k < n → Sys2Proof.core.run k s = .next u →
      (∀ g, ¬ Moves u (.answer s.requests g)) ∧ ¬ Moves u .reset) →
    ∃ t : State, Sys2Proof.core.run n s = .next t ∧ t.phase = .waitPriv ∧ t.mode = s.mode ∧ t.rsp = s.rsp ∧ t.x = s.x ∧
      t.trace = s.trace ∧ t.responses = s.responses ∧ t.requests = s.requests ∧ ∃ ws, t.held = s.held ++ ws

/-- 10_state.md R20: UNINIT is left only when a request is granted, READY only by a reset; a grant does enter READY and a reset
UNINIT. So a denied INIT, and every command, keeps the mode. In UNINIT no operation but INIT is valid: each is answered
NOT_READY; in READY every operation is valid: on a valid port each completes with OK. -/
def Obligations.ModeChangesOnlyByGrantOrReset : Prop :=
  (∀ s t, step s = .next t →
    (s.mode = .uninit → t.mode = .ready → Answers s .grant) ∧
      (s.mode = .ready → t.mode = .uninit → Moves s .reset) ∧
        (Answers s .grant → t.mode = .ready) ∧ (Moves s .reset → t.mode = .uninit)) ∧
    ∀ i s, i ≠ .init →
      (s.mode = .uninit → exec i s = .next (answered 0x0200#16 s)) ∧
        (s.mode = .ready → i.portValid = true →
          ∃ t r, exec i s = .next t ∧ t.rsp = some r ∧ statusField r = 0#3)

/-- 10_state.md R23: the response register holds its value until the next response overwrites it; reading it has no effect; a
reset empties it. -/
def Obligations.ResponseRegisterHoldsTheLastResponse : Prop :=
  (∀ s t, step s = .next t →
      (t.rsp = s.rsp ∧ t.responses = s.responses) ∨ (∃ r, t.rsp = some r ∧ t.responses = s.responses ++ [r]) ∨
        (Moves s .reset ∧ t.rsp = none)) ∧
    (∀ s, Moves s .readResponse → step s = .next (takeTurn s).2) ∧ State.reset.rsp = none

/-- `DATA_READ_SOURCE` is a parameter of the board (00_scope.md R7): no step changes it. That it stands in the state is the
model's choice (assumption log 2). -/
def Obligations.ReadSourceNeverChanges : Prop :=
  ∀ s t, step s = .next t → t.readSource = s.readSource

/-- 40_init.md R84: a step makes a privilege request exactly when it accepts an INIT, and then one (no retry after a denial):
the requests in the trace grow by one or not at all, unless a reset empties the trace; the model's count of requests
(assumption log 11) grows with them and is kept by a reset. -/
def Obligations.EachInitMakesExactlyOneRequest : Prop :=
  ∀ s t, step s = .next t →
    ((∃ w rest, Accepts s w rest ∧ decode w = .instr .init) →
        t.trace.count .privRequest = s.trace.count .privRequest + 1 ∧ t.requests = s.requests + 1) ∧
      ((∀ w rest, Accepts s w rest → decode w ≠ .instr .init) →
        t.requests = s.requests ∧
          (¬ Moves s .reset → t.trace.count .privRequest = s.trace.count .privRequest))

/-! ## Invariants: every step keeps them, from every state -/

/-- 10_state.md R30: the invariant; that nothing but a reset makes a written cell `Unwritten` again; and the consequence that
SETDIR never reads an `Unwritten` direction register. -/
def Obligations.ReadyRegistersStayWritten : Prop :=
  (∀ s t, ReadyRegistersWritten s → step s = .next t → ReadyRegistersWritten t) ∧
    (∀ s t sel v, s.x.get sel = .val v → step s = .next t → ¬ Moves s .reset → ∃ w, t.x.get sel = .val w) ∧
      ∀ s, ReadyRegistersWritten s → s.mode = .ready → ¬ DrawnRead s .dir

/-- 10_state.md R35. -/
def Obligations.UnassignedDirectionBitsStayZero : Prop :=
  ∀ s t, UnassignedDirBitsZero s → step s = .next t → UnassignedDirBitsZero t

/-- The registers hold what the trace last wrote, and every read that reads back returned it (10_state.md R24, 20_memory.md R44,
R45, R49). -/
def Obligations.TraceStaysConsistent : Prop :=
  ∀ s t, TraceConsistent s → step s = .next t → TraceConsistent t

/-- Every response has its five zero bits, a STATUS of 0 to 4, and DATA `0x00` with every error; `rsp` holds the last one
(30_encoding.md R66, R67, 10_state.md R23). That the responses are recorded is the model's choice (assumption log 12). -/
def Obligations.ResponsesStayLegal : Prop :=
  ∀ s t, ResponsesLegal s → step s = .next t → ResponsesLegal t

/-- In UNINIT no register has been reached since the last reset (60_exceptions.md R138). -/
def Obligations.UninitStaysUntouched : Prop :=
  ∀ s t, UninitReachesNothing s → step s = .next t → UninitReachesNothing t

/-- While the port waits, the privilege request is the last event: nothing happens on the bus in between (40_init.md R80,
20_memory.md R48). -/
def Obligations.PendingRequestStaysTheLastEvent : Prop :=
  ∀ s t, PendingRequestIsLast s → step s = .next t → PendingRequestIsLast t

/-! ## INIT -/

/-- 40_init.md R80: INIT's words; the request (counted, assumption log 11); its answer DENY; its answer GRANT. -/
def Obligations.InitRequestsThenProgramsTheRegisters : Prop :=
  RowDecodes 0x0000#16 0#3 (fun _ _ => .init) ∧ encode .init = 0x0000#16 ∧
  (∀ s, exec .init s =
      .next { s with trace := s.trace ++ [.privRequest], phase := .waitPriv, requests := s.requests + 1 }) ∧
  (∀ s, Answers s .deny → step s = .next (answered 0x0100#16 { (takeTurn s).2 with phase := .idle })) ∧
  ∀ s, Answers s .grant →
      step s = .next (answered 0x0000#16
        { (takeTurn s).2 with
          phase := .idle
          mode := .ready
          x := { s.x with base := .val 0x44#8, dir := .val 0x00#8 }
          trace := s.trace ++ [.busWrite .base 0x44#8, .busWrite .dir 0x00#8] })

/-- INIT completes in every state once its request is answered: the command makes the request, the next step takes the answer
to it that the schedule holds (numbered: assumption log 11) and gives the one response (40_init.md R80,
70_reset_and_hazards.md R170). -/
def Obligations.InitCompletesWhenAnswered : Prop :=
  ∀ s g ms, s.schedule = .env (.answer (s.requests + 1) g) :: ms →
    ∃ t u r, exec .init s = .next t ∧ t.phase = .waitPriv ∧ step t = .next u ∧ u.phase = .idle ∧
      u.rsp = some r ∧ u.responses = s.responses ++ [r] ∧ (r = 0x0000#16 ↔ g = .grant) ∧ (r = 0x0100#16 ↔ g = .deny)

/-- 40_init.md R81: INIT while READY runs again; on GRANT both registers are rewritten and the mode stays READY, on DENY nothing
is written and the mode stays READY. The answer names INIT's own request (assumption log 11). -/
def Obligations.InitWhileReadyKeepsReady : Prop :=
  ∀ s g ms, s.mode = .ready → s.schedule = .env (.answer (s.requests + 1) g) :: ms →
    ∃ t u, exec .init s = .next t ∧ t.mode = .ready ∧ step t = .next u ∧ u.mode = .ready ∧
      (g = .grant → u.rsp = some 0x0000#16 ∧ u.x = { s.x with base := .val 0x44#8, dir := .val 0x00#8 } ∧
        u.trace = s.trace ++ [.privRequest, .busWrite .base 0x44#8, .busWrite .dir 0x00#8]) ∧
      (g = .deny → u.rsp = some 0x0100#16 ∧ u.x = s.x ∧ u.trace = s.trace ++ [.privRequest])

/-- 40_init.md R83: two granted INITs in a row leave the registers and the mode as one does; the trace has both requests and all
four writes. Each answer names its INIT's request (assumption log 11). -/
def Obligations.GrantedInitTwiceEqualsOnce : Prop :=
  ∀ (s : State) (w1 w2 : Word) (rest : List Word) (ms : List Turn), s.phase = .idle → s.held = w1 :: w2 :: rest →
    w1 &&& 0xE300#16 = 0x0000#16 → w2 &&& 0xE300#16 = 0x0000#16 →
    s.schedule = .block :: .env (.answer (s.requests + 1) .grant) ::
      .block :: .env (.answer (s.requests + 2) .grant) :: ms →
    ∃ t u : State, Sys2Proof.core.run 2 s = .next t ∧ Sys2Proof.core.run 4 s = .next u ∧
      t.x = { s.x with base := .val 0x44#8, dir := .val 0x00#8 } ∧ u.x = t.x ∧ t.mode = .ready ∧ u.mode = .ready ∧
      u.trace = s.trace ++
        [.privRequest, .busWrite .base 0x44#8, .busWrite .dir 0x00#8,
          .privRequest, .busWrite .base 0x44#8, .busWrite .dir 0x00#8]

/-! ## SETDIR -/

/-- 41_direction.md R90: SETDIR's words, its errors, and its effect: the direction register is read and written back with the one
bit of the group set (INPUT) or cleared (OUTPUT); nothing else changes but the trace, the response and the draw counter. -/
def Obligations.SetdirSetsTheGroupBit : Prop :=
  RowDecodes 0x2000#16 1#3 (fun p a => .setdir p (if a.getLsbD 0 then .input else .output)) ∧
  (∀ g d, Gated (.setdir g d) (g = .a ∨ g = .b ∨ g = .cHigh ∨ g = .cLow)) ∧
  ∀ s g d k, s.mode = .ready → GroupBit g k →
    ∃ v v' n, ReadOutcome s .dir v n ∧
      (d = .input → v' = v ||| (1#8 <<< k)) ∧ (d = .output → v' = v &&& ~~~(1#8 <<< k)) ∧
      exec (.setdir g d) s = .next (answered 0x0000#16
        { s with
          x := { s.x with dir := .val v' }
          trace := s.trace ++ [.busRead .dir v, .busWrite .dir v']
          draws := n })

/-- 41_direction.md R93 and R91: after SETDIR the group's bit is the direction and every other bit is as before, so C_HIGH does
not reach bit 0; SETDIR is idempotent; SETDIRs of two groups commute. -/
def Obligations.SetdirGroupsAreIndependent : Prop :=
  (∀ s g d k v, s.mode = .ready → GroupBit g k → s.x.get .dir = .val v →
      ∃ t v', exec (.setdir g d) s = .next t ∧ t.rsp = some 0x0000#16 ∧ t.x.get .dir = .val v' ∧
        (v'.getLsbD k = true ↔ d = .input) ∧ (∀ j, j ≠ k → v'.getLsbD j = v.getLsbD j) ∧
        ∀ sel, sel ≠ .dir → t.x.get sel = s.x.get sel) ∧
  (∀ s g d t u, exec (.setdir g d) s = .next t → exec (.setdir g d) t = .next u → u.x = t.x) ∧
  ∀ s g1 d1 g2 d2 t1 u1 t2 u2, g1 ≠ g2 →
    exec (.setdir g1 d1) s = .next t1 → exec (.setdir g2 d2) t1 = .next u1 →
    exec (.setdir g2 d2) s = .next t2 → exec (.setdir g1 d1) t2 = .next u2 → u1.x = u2.x

/-! ## PINON and PINOFF -/

/-- 42_pin_level.md R100: PINON's words, its errors, and its effect. -/
def Obligations.PinonSetsTheMaskedPins : Prop :=
  RowDecodes 0x4000#16 2#3 .pinon ∧
  (∀ p m, Gated (.pinon p m) (p = .a ∨ p = .b ∨ p = .c)) ∧
  ∀ s p m sel, s.mode = .ready → Routes p sel →
    ∃ v n, ReadOutcome s sel v n ∧
      exec (.pinon p m) s = .next (answered 0x0000#16
        { s with
          x := s.x.set sel (v ||| m)
          trace := s.trace ++ [.busRead sel v, .busWrite sel (v ||| m)]
          draws := n })

/-- 42_pin_level.md R101: PINOFF's words, its errors, and its effect. -/
def Obligations.PinoffClearsTheMaskedPins : Prop :=
  RowDecodes 0x6000#16 3#3 .pinoff ∧
  (∀ p m, Gated (.pinoff p m) (p = .a ∨ p = .b ∨ p = .c)) ∧
  ∀ s p m sel, s.mode = .ready → Routes p sel →
    ∃ v n, ReadOutcome s sel v n ∧
      exec (.pinoff p m) s = .next (answered 0x0000#16
        { s with
          x := s.x.set sel (v &&& (m ^^^ 0xFF#8))
          trace := s.trace ++ [.busRead sel v, .busWrite sel (v &&& (m ^^^ 0xFF#8))]
          draws := n })

/-- 42_pin_level.md R103: the lane view of PINON and PINOFF; under `Store` a READPORT after them has the masked bits set or
clear, and each is idempotent; under `External` the later read is a draw. -/
def Obligations.PinCommandsActLaneByLane : Prop :=
  (∀ s p m sel, s.mode = .ready → Routes p sel →
      ∃ v n t1 t2 v1 v2, ReadOutcome s sel v n ∧ exec (.pinon p m) s = .next t1 ∧ exec (.pinoff p m) s = .next t2 ∧
        t1.x.get sel = .val v1 ∧ t2.x.get sel = .val v2 ∧
        ∀ k, k < 8 → v1.getLsbD k = (v.getLsbD k || m.getLsbD k) ∧ v2.getLsbD k = (v.getLsbD k && !m.getLsbD k)) ∧
  (∀ s p m sel t u, s.mode = .ready → Routes p sel → s.readSource = .store →
      exec (.pinon p m) s = .next t → exec (.readport p) t = .next u →
      ∃ r, u.rsp = some r ∧ statusField r = 0#3 ∧ dataField r &&& m = m) ∧
  (∀ s p m sel t u, s.mode = .ready → Routes p sel → s.readSource = .store →
      exec (.pinoff p m) s = .next t → exec (.readport p) t = .next u →
      ∃ r, u.rsp = some r ∧ statusField r = 0#3 ∧ dataField r &&& m = 0#8) ∧
  (∀ s p m t u, s.readSource = .store → exec (.pinon p m) s = .next t → exec (.pinon p m) t = .next u → u.x = t.x) ∧
  (∀ s p m t u, s.readSource = .store → exec (.pinoff p m) s = .next t → exec (.pinoff p m) t = .next u → u.x = t.x) ∧
  ∀ s p sel, s.mode = .ready → Routes p sel → s.readSource = .external →
      ∃ u, exec (.readport p) s = .next u ∧ u.rsp = some (0#8 ++ Config.draw s.draws)

/-- 70_reset_and_hazards.md R164: PINON and PINOFF write every unmasked bit back as it was read, which under `External` is as
the pin environment supplied it. -/
def Obligations.PinCommandsWriteSensedLevelsBack : Prop :=
  ∀ s p m sel, s.mode = .ready → Routes p sel →
    ∃ v n t1 t2 v1 v2, ReadOutcome s sel v n ∧ (s.readSource = .external → v = Config.draw s.draws) ∧
      exec (.pinon p m) s = .next t1 ∧ exec (.pinoff p m) s = .next t2 ∧
      t1.x.get sel = .val v1 ∧ t2.x.get sel = .val v2 ∧
      ∀ k, m.getLsbD k = false → v1.getLsbD k = v.getLsbD k ∧ v2.getLsbD k = v.getLsbD k

/-! ## WRITEPINS, READPIN, READPORT -/

/-- 43_port_data.md R110: WRITEPINS's words, its errors, and its effect: the register is overwritten, and no read is made. -/
def Obligations.WritepinsOverwritesThePort : Prop :=
  RowDecodes 0x8000#16 4#3 .writepins ∧
  (∀ p b, Gated (.writepins p b) (p = .a ∨ p = .b ∨ p = .c)) ∧
  ∀ s p b sel, s.mode = .ready → Routes p sel →
    exec (.writepins p b) s = .next (answered 0x0000#16
      { s with x := s.x.set sel b, trace := s.trace ++ [.busWrite sel b] })

/-- 43_port_data.md R111: under `Store` a READPORT right after WRITEPINS returns the byte written; under `External` it returns
a draw. -/
def Obligations.WritepinsThenReadportRoundTrips : Prop :=
  ∀ s p b, s.mode = .ready → (p = .a ∨ p = .b ∨ p = .c) →
    ∃ t u, exec (.writepins p b) s = .next t ∧ exec (.readport p) t = .next u ∧
      (s.readSource = .store → u.rsp = some (0#8 ++ b)) ∧
      (s.readSource = .external → u.rsp = some (0#8 ++ Config.draw s.draws))

/-- 43_port_data.md R112: READPIN's words, its errors, and its effect: DATA is 1 exactly when every masked bit of the byte read
is set; no register is written. -/
def Obligations.ReadpinTestsThatAllMaskedPinsAreHigh : Prop :=
  RowDecodes 0xA000#16 5#3 .readpin ∧
  (∀ p m, Gated (.readpin p m) (p = .a ∨ p = .b ∨ p = .c)) ∧
  ∀ s p m sel, s.mode = .ready → Routes p sel →
    ∃ v n, ReadOutcome s sel v n ∧
      exec (.readpin p m) s = .next (answered (if v &&& m = m then 0x0001#16 else 0x0000#16)
        { s with trace := s.trace ++ [.busRead sel v], draws := n })

/-- 43_port_data.md R113: READPIN is the AND over the masked lanes (true for no lanes), and after a READPORT it agrees with the
byte that returned when its own read returns the same byte, which under `Store` it does once the register is written. -/
def Obligations.ReadpinAgreesWithReadport : Prop :=
  ∀ s p m sel, s.mode = .ready → Routes p sel →
    ∃ v u v' n t, exec (.readport p) s = .next u ∧ u.rsp = some (0#8 ++ v) ∧ ReadOutcome u sel v' n ∧
      exec (.readpin p m) u = .next t ∧ (t.rsp = some 0x0001#16 ∨ t.rsp = some 0x0000#16) ∧
      (t.rsp = some 0x0001#16 ↔ ∀ k, k < 8 → m.getLsbD k = true → v'.getLsbD k = true) ∧
      (v' = v → (t.rsp = some 0x0001#16 ↔ v &&& m = m)) ∧
      ∀ w, s.readSource = .store → s.x.get sel = .val w → v' = v

/-- 43_port_data.md R114: READPORT's words, its errors, and its effect: DATA is the byte read. -/
def Obligations.ReadportReturnsTheRegisterByte : Prop :=
  RowDecodes 0xC000#16 6#3 (fun p _ => .readport p) ∧
  (∀ p, Gated (.readport p) (p = .a ∨ p = .b ∨ p = .c)) ∧
  ∀ s p sel, s.mode = .ready → Routes p sel →
    ∃ v n, ReadOutcome s sel v n ∧
      exec (.readport p) s = .next (answered (0#8 ++ v)
        { s with trace := s.trace ++ [.busRead sel v], draws := n })

/-- 43_port_data.md R115: READPIN and READPORT write no register, and make exactly one register read when they succeed and none
when they fail; nothing else changes but the response and the draw counter. -/
def Obligations.ReadCommandsWriteNoRegister : Prop :=
  ∀ i s t, ((∃ p m, i = .readpin p m) ∨ ∃ p, i = .readport p) → exec i s = .next t →
    t.x = s.x ∧ t.mode = s.mode ∧ t.phase = s.phase ∧
      ∃ r, t.rsp = some r ∧
        ((statusField r = 0#3 ∧ ∃ sel v, t.trace = s.trace ++ [.busRead sel v]) ∨
          (statusField r ≠ 0#3 ∧ t.trace = s.trace ∧ t.draws = s.draws))

/-- 43_port_data.md R116: a data command neither reads nor writes the direction register, and does the same whatever it holds. -/
def Obligations.DataCommandsIgnoreDirection : Prop :=
  ∀ i s t d, DataCommand i → exec i s = .next t →
    exec i { s with x := { s.x with dir := d } } = .next { t with x := { t.x with dir := d } } ∧
      t.x.dir = s.x.dir ∧
        ∃ es, t.trace = s.trace ++ es ∧ ∀ v, .busRead .dir v ∉ es ∧ .busWrite .dir v ∉ es

/-- 70_reset_and_hazards.md R169: a data register that nothing has written reads as a draw, READPORT leaves it unwritten so the
next read is the next draw, PINON and PINOFF write what they make of the draw; once written, under `Store`, it reads back. -/
def Obligations.UnwrittenDataRegisterReadsAsDraws : Prop :=
  ∀ s p sel, s.mode = .ready → Routes p sel →
    (s.x.get sel = .unwritten →
      (∃ t u, exec (.readport p) s = .next t ∧ t.rsp = some (0#8 ++ Config.draw s.draws) ∧ t.x.get sel = .unwritten ∧
        exec (.readport p) t = .next u ∧ u.rsp = some (0#8 ++ Config.draw (s.draws + 1))) ∧
      ∀ m, ∃ t1 t2, exec (.pinon p m) s = .next t1 ∧ t1.x.get sel = .val (Config.draw s.draws ||| m) ∧
        exec (.pinoff p m) s = .next t2 ∧ t2.x.get sel = .val (Config.draw s.draws &&& ~~~m)) ∧
    ∀ w, s.readSource = .store → s.x.get sel = .val w →
      ∃ t, exec (.readport p) s = .next t ∧ t.rsp = some (0#8 ++ w)

/-! ## Statuses, routing and frames of all commands -/

/-- 60_exceptions.md R131: which status a word reports when several causes apply: INVALID_OP, then NOT_READY, then INVALID_PORT;
PERMISSION_DENIED only from the answer to a request. -/
def Obligations.FirstApplicableStatusIsReported : Prop :=
  (∀ s w rest, Accepts s w rest →
    ((w.extractLsb' 13 3 = 7#3 ∨ w.extractLsb' 8 2 ≠ 0#2) →
      step s = .next (answered 0x0400#16 { (takeTurn s).2 with held := rest })) ∧
    ∀ i, decode w = .instr i →
      (i ≠ .init → s.mode = .uninit →
        step s = .next (answered 0x0200#16 { (takeTurn s).2 with held := rest })) ∧
      (i ≠ .init → s.mode = .ready → i.portValid = false →
        step s = .next (answered 0x0300#16 { (takeTurn s).2 with held := rest })) ∧
      (i = .init → ∃ t, step s = .next t ∧ t.phase = .waitPriv ∧ t.responses = s.responses)) ∧
  ∀ s t r, step s = .next t → t.responses = s.responses ++ [r] → statusField r = 1#3 → Answers s .deny

/-- 60_exceptions.md R132: a step that reports an error touches no register, makes no bus access and keeps the mode; its response
has DATA 0; the phase stays, but for PERMISSION_DENIED, which returns it from WAIT_PRIV to IDLE and whose command recorded
the request. -/
def Obligations.ErrorsHaveNoEffectOnRegisters : Prop :=
  (∀ s t r, step s = .next t → t.responses = s.responses ++ [r] → statusField r ≠ 0#3 →
    r = 0#5 ++ statusField r ++ 0x00#8 ∧ t.rsp = some r ∧ t.x = s.x ∧ t.mode = s.mode ∧ t.trace = s.trace ∧
      t.draws = s.draws ∧
      (statusField r ≠ 1#3 → t.phase = s.phase) ∧ (statusField r = 1#3 → s.phase = .waitPriv ∧ t.phase = .idle)) ∧
  ∀ s ms, s.schedule = .env (.answer (s.requests + 1) .deny) :: ms →
    ∃ t u, exec .init s = .next t ∧ step t = .next u ∧ u.rsp = some 0x0100#16 ∧ u.x = s.x ∧ u.mode = s.mode ∧
      u.trace = s.trace ++ [.privRequest]

/-- 10_state.md R29, the register mux: a command changes and accesses no register but those it is routed to; INIT's answer reaches
the base-mode register and then the direction register. -/
def Obligations.CommandsReachOnlyTheirRegister : Prop :=
  (∀ i s t, exec i s = .next t →
    (∀ sel, ¬ Reaches i sel → t.x.get sel = s.x.get sel) ∧
      ∃ es, t.trace = s.trace ++ es ∧
        ∀ sel v, (.busRead sel v ∈ es ∨ .busWrite sel v ∈ es) → Reaches i sel) ∧
  ∀ g s t, Answers s g → step s = .next t →
    (∀ sel, sel ≠ .base → sel ≠ .dir → t.x.get sel = s.x.get sel) ∧
      (t.trace = s.trace ∨ ∃ v w, t.trace = s.trace ++ [.busWrite .base v, .busWrite .dir w])

/-- What every command leaves alone: the mode, the words held, the environment and the read source; every command but INIT the
phase and the count of requests too, and it gives exactly one response; INIT gives none yet and reaches no register
(10_state.md R20, R22, 30_encoding.md R61). -/
def Obligations.CommandsLeaveTheRestAlone : Prop :=
  ∀ i s t, exec i s = .next t →
    t.mode = s.mode ∧ t.held = s.held ∧ t.readSource = s.readSource ∧ t.schedule = s.schedule ∧ t.turns = s.turns ∧
      (i ≠ .init → t.phase = s.phase ∧ t.requests = s.requests ∧ ∃ r, t.rsp = some r ∧ t.responses = s.responses ++ [r]) ∧
      (i = .init → t.x = s.x ∧ t.rsp = s.rsp ∧ t.responses = s.responses ∧ t.draws = s.draws ∧
        t.requests = s.requests + 1)

/-- SETDIR, PINON, PINOFF, WRITEPINS, READPIN and READPORT complete with status OK in every READY state, on every port that is
valid for them (60_exceptions.md R138, 30_encoding.md R63). -/
def Obligations.ReadyCommandsCompleteWithOk : Prop :=
  ∀ i s, i ≠ .init → s.mode = .ready → i.portValid = true →
    ∃ t r, exec i s = .next t ∧ t.rsp = some r ∧ t.responses = s.responses ++ [r] ∧ statusField r = 0#3
end

