-- ==== Sys2Proof/Laws/Decode.lean ====
section
/-! SUPPORT. The fields of a command word: a word is its four fields, and each field reads back. -/

namespace Sys2Proof

@[simp] theorem fieldOp_commandWord (op p : BitVec 3) (r : BitVec 2) (a : Byte) : fieldOp (commandWord op p r a) = op :=
  (BitVec.extractLsb'_append_eq_of_le (xhi := op ++ p ++ r) (by decide)).trans
    ((BitVec.extractLsb'_append_eq_of_le (xhi := op ++ p) (by decide)).trans BitVec.extractLsb'_append_eq_left)

@[simp] theorem fieldPort_commandWord (op p : BitVec 3) (r : BitVec 2) (a : Byte) :
    fieldPort (commandWord op p r a) = p :=
  (BitVec.extractLsb'_append_eq_of_le (xhi := op ++ p ++ r) (by decide)).trans
    ((BitVec.extractLsb'_append_eq_of_le (xhi := op ++ p) (by decide)).trans BitVec.extractLsb'_append_eq_right)

@[simp] theorem fieldRsv_commandWord (op p : BitVec 3) (r : BitVec 2) (a : Byte) :
    fieldRsv (commandWord op p r a) = r :=
  (BitVec.extractLsb'_append_eq_of_le (xhi := op ++ p ++ r) (by decide)).trans BitVec.extractLsb'_append_eq_right

@[simp] theorem fieldArg_commandWord (op p : BitVec 3) (r : BitVec 2) (a : Byte) :
    fieldArg (commandWord op p r a) = a :=
  BitVec.extractLsb'_append_eq_right

/-- A word is the concatenation of its fields (30_encoding.md R62). -/
theorem commandWord_fields (w : Word) : commandWord (fieldOp w) (fieldPort w) (fieldRsv w) (fieldArg w) = w := by
  simp only [commandWord, fieldOp, fieldPort, fieldRsv, fieldArg]
  rw [BitVec.extractLsb'_append_extractLsb'_eq_extractLsb' (by rfl),
    BitVec.extractLsb'_append_extractLsb'_eq_extractLsb' (by rfl),
    BitVec.extractLsb'_append_extractLsb'_eq_extractLsb' (by rfl)]
  exact BitVec.extractLsb'_eq_self

@[simp] theorem portOfCode_code (p : Port) : portOfCode p.code = p := by cases p <;> rfl

/-- AND of command words is AND of their fields. -/
theorem commandWord_and (op p op' p' : BitVec 3) (r r' : BitVec 2) (a a' : Byte) :
    commandWord op p r a &&& commandWord op' p' r' a' = commandWord (op &&& op') (p &&& p') (r &&& r') (a &&& a') :=
  (BitVec.and_append (x₁ := op ++ p ++ r)).trans
    (congrArg (· ++ (a &&& a')) ((BitVec.and_append (x₁ := op ++ p)).trans
      (congrArg (· ++ (r &&& r')) BitVec.and_append)))

/-- The masks of 30_encoding.md R72 see OP and RSV alone. -/
theorem commandWord_under_mask (op p : BitVec 3) (r : BitVec 2) (a : Byte) :
    commandWord op p r a &&& 0xE300#16 = commandWord op 0#3 r 0#8 := by
  have hm : (0xE300#16 : Word) = commandWord 7#3 0#3 3#2 0#8 := by decide
  have h7 : op &&& 7#3 = op := by decide +revert
  have h3 : r &&& 3#2 = r := by decide +revert
  rw [hm, commandWord_and, h7, h3, BitVec.and_zero, BitVec.and_zero]

/-- A word whose OP and RSV are legal, decoded. -/
theorem decode_commandWord (op p : BitVec 3) (a : Byte) (h : op ≠ 7#3) :
    decode (commandWord op p 0#2 a) =
      match op.toNat with
      | 0 => .instr .init
      | 1 => .instr (.setdir (portOfCode p) (directionOfBit (a.getLsbD 0)))
      | 2 => .instr (.pinon (portOfCode p) a)
      | 3 => .instr (.pinoff (portOfCode p) a)
      | 4 => .instr (.writepins (portOfCode p) a)
      | 5 => .instr (.readpin (portOfCode p) a)
      | 6 => .instr (.readport (portOfCode p))
      | _ => .reservedOp := by
  simp [decode, h] <;> rfl

/-- A word is rejected exactly for its OP or its RSV (30_encoding.md R68). -/
theorem decode_rejects_iff (w : Word) :
    (decode w = .reservedOp ∨ decode w = .reservedRsv) ↔ fieldOp w = 7#3 ∨ fieldRsv w ≠ 0#2 := by
  by_cases ho : fieldOp w = 7#3
  · simp [decode, ho]
  · by_cases hr : fieldRsv w = 0#2
    · have hw := commandWord_fields w
      rw [hr] at hw
      simp only [ho, hr, false_or, ne_eq, not_true, iff_false]
      rw [← hw, decode_commandWord _ _ _ ho]
      generalize fieldOp w = op at ho
      have hop : op = 0#3 ∨ op = 1#3 ∨ op = 2#3 ∨ op = 3#3 ∨ op = 4#3 ∨ op = 5#3 ∨ op = 6#3 ∨ op = 7#3 := by
        decide +revert
      rcases hop with rfl | rfl | rfl | rfl | rfl | rfl | rfl | rfl <;> simp_all
    · simp [decode, ho, hr]

end Sys2Proof
end

