-- ==== Sys2Proof/Laws/State.lean ====
section
/-! SUPPORT. One lemma per field per state update, so that no later proof unfolds a record update; and the register
file's read-after-write. -/

namespace Sys2Proof.Machine

/-! Records an event: the trace alone grows. -/

@[simp] theorem record_mode (e : Event) (s : State) : (record e s).mode = s.mode := rfl
@[simp] theorem record_phase (e : Event) (s : State) : (record e s).phase = s.phase := rfl
@[simp] theorem record_rsp (e : Event) (s : State) : (record e s).rsp = s.rsp := rfl
@[simp] theorem record_x (e : Event) (s : State) : (record e s).x = s.x := rfl
@[simp] theorem record_trace (e : Event) (s : State) : (record e s).trace = s.trace ++ [e] := rfl
@[simp] theorem record_responses (e : Event) (s : State) : (record e s).responses = s.responses := rfl
@[simp] theorem record_held (e : Event) (s : State) : (record e s).held = s.held := rfl
@[simp] theorem record_requests (e : Event) (s : State) : (record e s).requests = s.requests := rfl
@[simp] theorem record_readSource (e : Event) (s : State) : (record e s).readSource = s.readSource := rfl
@[simp] theorem record_schedule (e : Event) (s : State) : (record e s).schedule = s.schedule := rfl
@[simp] theorem record_turns (e : Event) (s : State) : (record e s).turns = s.turns := rfl
@[simp] theorem record_draws (e : Event) (s : State) : (record e s).draws = s.draws := rfl

/-! A register write: the register file and the trace. -/

@[simp] theorem memWrite_mode (sel : Sel) (v : Byte) (s : State) : (memWrite sel v s).mode = s.mode := rfl
@[simp] theorem memWrite_phase (sel : Sel) (v : Byte) (s : State) : (memWrite sel v s).phase = s.phase := rfl
@[simp] theorem memWrite_rsp (sel : Sel) (v : Byte) (s : State) : (memWrite sel v s).rsp = s.rsp := rfl
@[simp] theorem memWrite_x (sel : Sel) (v : Byte) (s : State) : (memWrite sel v s).x = s.x.set sel v := rfl
@[simp] theorem memWrite_trace (sel : Sel) (v : Byte) (s : State) : (memWrite sel v s).trace = s.trace ++ [.busWrite sel v] := rfl
@[simp] theorem memWrite_responses (sel : Sel) (v : Byte) (s : State) : (memWrite sel v s).responses = s.responses := rfl
@[simp] theorem memWrite_held (sel : Sel) (v : Byte) (s : State) : (memWrite sel v s).held = s.held := rfl
@[simp] theorem memWrite_requests (sel : Sel) (v : Byte) (s : State) : (memWrite sel v s).requests = s.requests := rfl
@[simp] theorem memWrite_readSource (sel : Sel) (v : Byte) (s : State) : (memWrite sel v s).readSource = s.readSource := rfl
@[simp] theorem memWrite_schedule (sel : Sel) (v : Byte) (s : State) : (memWrite sel v s).schedule = s.schedule := rfl
@[simp] theorem memWrite_turns (sel : Sel) (v : Byte) (s : State) : (memWrite sel v s).turns = s.turns := rfl
@[simp] theorem memWrite_draws (sel : Sel) (v : Byte) (s : State) : (memWrite sel v s).draws = s.draws := rfl

/-! The privilege request: the trace and the phase. -/

@[simp] theorem privRequest_mode (s : State) : (privRequest s).mode = s.mode := rfl
@[simp] theorem privRequest_phase (s : State) : (privRequest s).phase = .waitPriv := rfl
@[simp] theorem privRequest_rsp (s : State) : (privRequest s).rsp = s.rsp := rfl
@[simp] theorem privRequest_x (s : State) : (privRequest s).x = s.x := rfl
@[simp] theorem privRequest_trace (s : State) : (privRequest s).trace = s.trace ++ [.privRequest] := rfl
@[simp] theorem privRequest_responses (s : State) : (privRequest s).responses = s.responses := rfl
@[simp] theorem privRequest_held (s : State) : (privRequest s).held = s.held := rfl
@[simp] theorem privRequest_requests (s : State) : (privRequest s).requests = s.requests + 1 := rfl
@[simp] theorem privRequest_readSource (s : State) : (privRequest s).readSource = s.readSource := rfl
@[simp] theorem privRequest_schedule (s : State) : (privRequest s).schedule = s.schedule := rfl
@[simp] theorem privRequest_turns (s : State) : (privRequest s).turns = s.turns := rfl
@[simp] theorem privRequest_draws (s : State) : (privRequest s).draws = s.draws := rfl

/-! A response: `rsp` and the sequence of responses. -/

@[simp] theorem giveResponse_mode (w : Word) (s : State) : (giveResponse w s).mode = s.mode := rfl
@[simp] theorem giveResponse_phase (w : Word) (s : State) : (giveResponse w s).phase = s.phase := rfl
@[simp] theorem giveResponse_rsp (w : Word) (s : State) : (giveResponse w s).rsp = some w := rfl
@[simp] theorem giveResponse_x (w : Word) (s : State) : (giveResponse w s).x = s.x := rfl
@[simp] theorem giveResponse_trace (w : Word) (s : State) : (giveResponse w s).trace = s.trace := rfl
@[simp] theorem giveResponse_responses (w : Word) (s : State) : (giveResponse w s).responses = s.responses ++ [w] := rfl
@[simp] theorem giveResponse_held (w : Word) (s : State) : (giveResponse w s).held = s.held := rfl
@[simp] theorem giveResponse_requests (w : Word) (s : State) : (giveResponse w s).requests = s.requests := rfl
@[simp] theorem giveResponse_readSource (w : Word) (s : State) : (giveResponse w s).readSource = s.readSource := rfl
@[simp] theorem giveResponse_schedule (w : Word) (s : State) : (giveResponse w s).schedule = s.schedule := rfl
@[simp] theorem giveResponse_turns (w : Word) (s : State) : (giveResponse w s).turns = s.turns := rfl
@[simp] theorem giveResponse_draws (w : Word) (s : State) : (giveResponse w s).draws = s.draws := rfl

/-! `respond`. -/

@[simp] theorem respond_mode (st : Status) (d : Byte) (s : State) : (respond st d s).mode = s.mode := rfl
@[simp] theorem respond_phase (st : Status) (d : Byte) (s : State) : (respond st d s).phase = s.phase := rfl
@[simp] theorem respond_rsp (st : Status) (d : Byte) (s : State) : (respond st d s).rsp = some (responseWord st d) := rfl
@[simp] theorem respond_x (st : Status) (d : Byte) (s : State) : (respond st d s).x = s.x := rfl
@[simp] theorem respond_trace (st : Status) (d : Byte) (s : State) : (respond st d s).trace = s.trace := rfl
@[simp] theorem respond_responses (st : Status) (d : Byte) (s : State) : (respond st d s).responses = s.responses ++ [responseWord st d] := rfl
@[simp] theorem respond_held (st : Status) (d : Byte) (s : State) : (respond st d s).held = s.held := rfl
@[simp] theorem respond_requests (st : Status) (d : Byte) (s : State) : (respond st d s).requests = s.requests := rfl
@[simp] theorem respond_readSource (st : Status) (d : Byte) (s : State) : (respond st d s).readSource = s.readSource := rfl
@[simp] theorem respond_schedule (st : Status) (d : Byte) (s : State) : (respond st d s).schedule = s.schedule := rfl
@[simp] theorem respond_turns (st : Status) (d : Byte) (s : State) : (respond st d s).turns = s.turns := rfl
@[simp] theorem respond_draws (st : Status) (d : Byte) (s : State) : (respond st d s).draws = s.draws := rfl

/-! `raise`. -/

@[simp] theorem raiseStatus_mode (st : Status) (s : State) : (raiseStatus st s).mode = s.mode := rfl
@[simp] theorem raiseStatus_phase (st : Status) (s : State) : (raiseStatus st s).phase = s.phase := rfl
@[simp] theorem raiseStatus_rsp (st : Status) (s : State) : (raiseStatus st s).rsp = some (responseWord st 0x00#8) := rfl
@[simp] theorem raiseStatus_x (st : Status) (s : State) : (raiseStatus st s).x = s.x := rfl
@[simp] theorem raiseStatus_trace (st : Status) (s : State) : (raiseStatus st s).trace = s.trace := rfl
@[simp] theorem raiseStatus_responses (st : Status) (s : State) : (raiseStatus st s).responses = s.responses ++ [responseWord st 0x00#8] := rfl
@[simp] theorem raiseStatus_held (st : Status) (s : State) : (raiseStatus st s).held = s.held := rfl
@[simp] theorem raiseStatus_requests (st : Status) (s : State) : (raiseStatus st s).requests = s.requests := rfl
@[simp] theorem raiseStatus_readSource (st : Status) (s : State) : (raiseStatus st s).readSource = s.readSource := rfl
@[simp] theorem raiseStatus_schedule (st : Status) (s : State) : (raiseStatus st s).schedule = s.schedule := rfl
@[simp] theorem raiseStatus_turns (st : Status) (s : State) : (raiseStatus st s).turns = s.turns := rfl
@[simp] theorem raiseStatus_draws (st : Status) (s : State) : (raiseStatus st s).draws = s.draws := rfl

/-! A reset of the block. -/

@[simp] theorem hardReset_mode (s : State) : (hardReset s).mode = .uninit := rfl
@[simp] theorem hardReset_phase (s : State) : (hardReset s).phase = .idle := rfl
@[simp] theorem hardReset_rsp (s : State) : (hardReset s).rsp = none := rfl
@[simp] theorem hardReset_x (s : State) : (hardReset s).x = RegFile.unwritten := rfl
@[simp] theorem hardReset_trace (s : State) : (hardReset s).trace = [] := rfl
@[simp] theorem hardReset_responses (s : State) : (hardReset s).responses = [] := rfl
@[simp] theorem hardReset_held (s : State) : (hardReset s).held = s.held := rfl
@[simp] theorem hardReset_requests (s : State) : (hardReset s).requests = s.requests := rfl
@[simp] theorem hardReset_readSource (s : State) : (hardReset s).readSource = s.readSource := rfl
@[simp] theorem hardReset_schedule (s : State) : (hardReset s).schedule = s.schedule := rfl
@[simp] theorem hardReset_turns (s : State) : (hardReset s).turns = s.turns := rfl
@[simp] theorem hardReset_draws (s : State) : (hardReset s).draws = s.draws := rfl

/-! Taking a turn: the schedule or the turn counter alone. -/

@[simp] theorem takeTurn_mode (s : State) : (takeTurn s).2.mode = s.mode := by
  cases h : s.schedule <;> simp only [takeTurn, h]

@[simp] theorem takeTurn_phase (s : State) : (takeTurn s).2.phase = s.phase := by
  cases h : s.schedule <;> simp only [takeTurn, h]

@[simp] theorem takeTurn_rsp (s : State) : (takeTurn s).2.rsp = s.rsp := by
  cases h : s.schedule <;> simp only [takeTurn, h]

@[simp] theorem takeTurn_x (s : State) : (takeTurn s).2.x = s.x := by
  cases h : s.schedule <;> simp only [takeTurn, h]

@[simp] theorem takeTurn_trace (s : State) : (takeTurn s).2.trace = s.trace := by
  cases h : s.schedule <;> simp only [takeTurn, h]

@[simp] theorem takeTurn_responses (s : State) : (takeTurn s).2.responses = s.responses := by
  cases h : s.schedule <;> simp only [takeTurn, h]

@[simp] theorem takeTurn_held (s : State) : (takeTurn s).2.held = s.held := by
  cases h : s.schedule <;> simp only [takeTurn, h]

@[simp] theorem takeTurn_readSource (s : State) : (takeTurn s).2.readSource = s.readSource := by
  cases h : s.schedule <;> simp only [takeTurn, h]

@[simp] theorem takeTurn_requests (s : State) : (takeTurn s).2.requests = s.requests := by
  cases h : s.schedule <;> simp only [takeTurn, h]

@[simp] theorem takeTurn_draws (s : State) : (takeTurn s).2.draws = s.draws := by
  cases h : s.schedule <;> simp only [takeTurn, h]

/-! The register file. -/

@[simp] theorem get_set_same (x : RegFile) (sel : Sel) (v : Byte) : (x.set sel v).get sel = .val v := by
  cases sel <;> rfl

theorem get_set_other (x : RegFile) {sel t : Sel} (v : Byte) (h : t ≠ sel) : (x.set sel v).get t = x.get t := by
  cases sel <;> cases t <;> first | rfl | exact absurd rfl h

@[simp] theorem get_unwritten (sel : Sel) : RegFile.unwritten.get sel = .unwritten := by
  cases sel <;> rfl

/-- Two register files with equal cells are equal. -/
theorem regFile_ext {x y : RegFile} (h : ∀ sel, x.get sel = y.get sel) : x = y := by
  have hb := h .base
  have hd := h .dir
  have h1 := h .dataA
  have h2 := h .dataB
  have h3 := h .dataC
  cases x; cases y
  simp_all [RegFile.get]

end Sys2Proof.Machine
end

