-- ==== Sys2Proof/Laws/Ops.lean ====
section
/-! SUPPORT. One lemma per shared operation: everything it can do, for later proofs to cite instead of unfolding it. -/

namespace Sys2Proof.Machine

/-- A register read answers a byte `v` with `ReadOutcome`, and changes the trace and the draw counter alone. -/
theorem memRead_spec (sel : Sel) (s : State) :
    ∃ v n, ReadOutcome s sel v n ∧
      memRead sel s = (v, { s with trace := s.trace ++ [.busRead sel v], draws := n }) := by
  by_cases hx : isDataSel sel = true ∧ s.readSource = .external
  · refine ⟨Config.draw s.draws, s.draws + 1, .inl ⟨.inl ⟨?_, hx.2⟩, rfl, rfl⟩, ?_⟩
    · cases sel <;> simp_all [isDataSel]
    · simp only [memRead, readValue, if_pos hx]
      rfl
  · cases hc : s.x.get sel with
    | unwritten =>
      refine ⟨Config.draw s.draws, s.draws + 1, .inl ⟨.inr hc, rfl, rfl⟩, ?_⟩
      simp only [memRead, readValue, if_neg hx, hc]
      rfl
    | val w =>
      refine ⟨w, s.draws, .inr ⟨?_, hc, rfl⟩, ?_⟩
      · rintro (⟨h, he⟩ | h)
        · exact hx ⟨by rcases h with rfl | rfl | rfl <;> rfl, he⟩
        · rw [hc] at h
          cases h
      · simp only [memRead, readValue, if_neg hx, hc]
        rfl

/-- The byte and the draw counter a read gives are determined. -/
theorem readOutcome_unique {s : State} {sel : Sel} {v v' : Byte} {n n' : Nat}
    (h : ReadOutcome s sel v n) (h' : ReadOutcome s sel v' n') : v = v' ∧ n = n' := by
  rcases h with ⟨hd, rfl, rfl⟩ | ⟨hd, hv, rfl⟩ <;> rcases h' with ⟨hd', rfl, rfl⟩ | ⟨hd', hv', rfl⟩
  · exact ⟨rfl, rfl⟩
  · exact absurd hd hd'
  · exact absurd hd' hd
  · rw [hv] at hv'
    cases hv'
    exact ⟨rfl, rfl⟩

/-- What `memRead` gives is the `ReadOutcome`. -/
theorem memRead_eq {s : State} {sel : Sel} {v : Byte} {n : Nat} (h : ReadOutcome s sel v n) :
    memRead sel s = (v, { s with trace := s.trace ++ [.busRead sel v], draws := n }) := by
  obtain ⟨v', n', h', he⟩ := memRead_spec sel s
  obtain ⟨rfl, rfl⟩ := readOutcome_unique h h'
  exact he

/-- A read-modify-write reads, writes the byte made from the byte read, and answers OK. -/
theorem readModifyWrite_eq {s : State} {sel : Sel} {v : Byte} {n : Nat} (f : Byte → Byte) (h : ReadOutcome s sel v n) :
    readModifyWrite f sel s =
      answered 0x0000#16
        { s with
          x := s.x.set sel (f v)
          trace := s.trace ++ [.busRead sel v, .busWrite sel (f v)]
          draws := n } := by
  simp only [readModifyWrite, memRead_eq h]
  simp [respond, giveResponse, memWrite, record, answered, responseWord, statusCode]

/-- A read command reads and answers OK with the byte made from the byte read. -/
theorem readAndRespond_eq {s : State} {sel : Sel} {v : Byte} {n : Nat} (f : Byte → Byte) (h : ReadOutcome s sel v n) :
    readAndRespond f sel s =
      answered (responseWord .ok (f v)) { s with trace := s.trace ++ [.busRead sel v], draws := n } := by
  simp only [readAndRespond, memRead_eq h]
  rfl

theorem raiseStatus_eq (st : Status) (s : State) : raiseStatus st s = answered (responseWord st 0x00#8) s := rfl

/-- The fields of the response word. -/
theorem responseWord_fields (st : Status) (d : Byte) :
    (responseWord st d).extractLsb' 11 5 = 0#5 ∧ statusField (responseWord st d) = statusCode st ∧
      dataField (responseWord st d) = d := by
  refine ⟨?_, ?_, BitVec.extractLsb'_append_eq_right⟩
  · exact (BitVec.extractLsb'_append_eq_of_le (xhi := 0#5 ++ statusCode st) (by decide)).trans
      BitVec.extractLsb'_append_eq_left
  · exact (BitVec.extractLsb'_append_eq_of_le (xhi := 0#5 ++ statusCode st) (by decide)).trans
      BitVec.extractLsb'_append_eq_right

/-- The mode gate. -/
theorem whenReady_uninit {s : State} (body : State → State) (h : s.mode = .uninit) :
    whenReady s body = raiseStatus .notReady s := by
  simp only [whenReady, h]

theorem whenReady_ready {s : State} (body : State → State) (h : s.mode = .ready) : whenReady s body = body s := by
  simp only [whenReady, h]

/-- `dataSel` is the routing of 10_state.md R29. -/
theorem dataSel_eq_some_iff {p : Port} {sel : Sel} : dataSel p = some sel ↔ Routes p sel := by
  cases p <;> cases sel <;> simp [dataSel, Routes]

theorem dataSel_eq_none_iff {p : Port} : dataSel p = none ↔ p.validData = false := by
  cases p <;> simp [dataSel, Port.validData]

/-- `dirBit` is the table of 41_direction.md R90. -/
theorem dirBit_eq_some_iff {g : Port} {k : Nat} : dirBit g = some k ↔ GroupBit g k := by
  cases g <;> simp [dirBit, GroupBit, eq_comm]

theorem dirBit_eq_none_iff {g : Port} : dirBit g = none ↔ g.validGroup = false := by
  cases g <;> simp [dirBit, Port.validGroup]

/-- What a data command does: it is refused by its mode, refused by its port, or runs on the register its port names. -/
theorem dataCommand_cases (p : Port) (body : Sel → State → State) (s : State) :
    (s.mode = .uninit ∧ dataCommand p body s = raiseStatus .notReady s) ∨
      (s.mode = .ready ∧ p.validData = false ∧ dataCommand p body s = raiseStatus .invalidPort s) ∨
        ∃ sel, s.mode = .ready ∧ Routes p sel ∧ dataCommand p body s = body sel s := by
  cases hm : s.mode with
  | uninit => exact .inl ⟨rfl, whenReady_uninit _ hm⟩
  | ready =>
    refine .inr ?_
    cases hs : dataSel p with
    | none =>
      refine .inl ⟨rfl, dataSel_eq_none_iff.1 hs, ?_⟩
      simp only [dataCommand, whenReady_ready _ hm, hs]
    | some sel =>
      refine .inr ⟨sel, rfl, dataSel_eq_some_iff.1 hs, ?_⟩
      simp only [dataCommand, whenReady_ready _ hm, hs]

/-- INIT's second transition on DENY. -/
theorem initAnswer_deny (s : State) : initAnswer .deny s = answered 0x0100#16 { s with phase := .idle } := rfl

/-- INIT's second transition on GRANT. -/
theorem initAnswer_grant (s : State) :
    initAnswer .grant s =
      answered 0x0000#16
        { s with
          phase := .idle
          mode := .ready
          x := (s.x.set .base modeByte).set .dir dirInit
          trace := s.trace ++ [.busWrite .base modeByte, .busWrite .dir dirInit] } := by
  simp [initAnswer, respond, giveResponse, memWrite, record, answered, responseWord, statusCode]

/-- The last write of a trace one event longer. -/
theorem lastWrite_append (sel : Sel) (tr : List Event) (e : Event) :
    lastWrite sel (tr ++ [e]) =
      match e with
      | .privRequest => lastWrite sel tr
      | .busRead _ _ => lastWrite sel tr
      | .busWrite t v => if t = sel then .val v else lastWrite sel tr := by
  cases e <;> simp [lastWrite, List.foldl_append]

end Sys2Proof.Machine
end

