-- ==== Sys2Proof/Laws/PerInstr.lean ====
section
/-! SUPPORT. The per-instruction family `OpcodeRow`: the word of an instruction lies in its row of the opcode map
(30_encoding.md R72). -/

namespace Sys2Proof.Laws.OpcodeRow

/-- The `match` value of an instruction's row (30_encoding.md R72). -/
def matchOf : Instr → Word
  | .init => 0x0000#16
  | .setdir _ _ => 0x2000#16
  | .pinon _ _ => 0x4000#16
  | .pinoff _ _ => 0x6000#16
  | .writepins _ _ => 0x8000#16
  | .readpin _ _ => 0xA000#16
  | .readport _ => 0xC000#16

/-- An instruction's word has its row's `match` under the row's mask. -/
def Statement (i : Instr) : Prop := encode i &&& 0xE300#16 = matchOf i

theorem init : Statement .init := by
  unfold Statement
  decide

theorem setdir (g : Port) (d : Direction) : Statement (.setdir g d) :=
  (commandWord_under_mask ..).trans rfl

theorem pinon (p : Port) (m : Byte) : Statement (.pinon p m) := (commandWord_under_mask ..).trans rfl

theorem pinoff (p : Port) (m : Byte) : Statement (.pinoff p m) := (commandWord_under_mask ..).trans rfl

theorem writepins (p : Port) (b : Byte) : Statement (.writepins p b) := (commandWord_under_mask ..).trans rfl

theorem readpin (p : Port) (m : Byte) : Statement (.readpin p m) := (commandWord_under_mask ..).trans rfl

theorem readport (p : Port) : Statement (.readport p) := (commandWord_under_mask ..).trans rfl

end Sys2Proof.Laws.OpcodeRow
end

