-- ==== Sys2Proof/Laws/Step.lean ====
section
/-! SUPPORT. Everything a command and a step can do, said once: later proofs take these cases and do not unfold `exec` or
`step`. -/

namespace Sys2Proof.Machine

/-- Whose turn comes changes nothing but the schedule or the turn counter. -/
theorem takeTurn_frame (s : State) : ∃ sch n, (takeTurn s).2 = { s with schedule := sch, turns := n } := by
  cases h : s.schedule with
  | nil => exact ⟨[], s.turns + 1, by simp only [takeTurn, h]⟩
  | cons m rest => exact ⟨rest, s.turns, by simp only [takeTurn, h]⟩

theorem takeTurn_of_schedule {s : State} {m : Turn} {ms : List Turn} (h : s.schedule = m :: ms) :
    takeTurn s = (m, { s with schedule := ms }) := by
  simp only [takeTurn, h]

/-- A command accepted from the port. -/
theorem step_of_accepts {s : State} {w : Word} {rest : List Word} (h : Accepts s w rest) :
    step s =
      match decode w with
      | .instr i => exec i { (takeTurn s).2 with held := rest }
      | .reservedOp => .next (rejectWord { (takeTurn s).2 with held := rest })
      | .reservedRsv => .next (rejectWord { (takeTurn s).2 with held := rest }) := by
  obtain ⟨ht, hp, hh⟩ := h
  have ha : acceptCommand (takeTurn s).2 = some (w, { (takeTurn s).2 with held := rest }) := by
    simp only [acceptCommand, takeTurn_phase, takeTurn_held, hp, hh]
  simp only [step, ht, blockTurn, ha] <;> rfl

theorem step_of_instr {s : State} {w : Word} {rest : List Word} {i : Instr} (h : Accepts s w rest)
    (hd : decode w = .instr i) : step s = exec i { (takeTurn s).2 with held := rest } := by
  rw [step_of_accepts h, hd]

theorem step_of_illegal {s : State} {w : Word} {rest : List Word} (h : Accepts s w rest)
    (hd : decode w = .reservedOp ∨ decode w = .reservedRsv) :
    step s = .next (raiseStatus .invalidOp { (takeTurn s).2 with held := rest }) := by
  rw [step_of_accepts h]
  rcases hd with hd | hd <;> rw [hd] <;> rfl

/-- The block's turn where it can accept nothing. -/
theorem step_of_block_idle {s : State} (ht : (takeTurn s).1 = .block) (h : s.phase = .waitPriv ∨ s.held = []) :
    step s = .next (takeTurn s).2 := by
  have ha : acceptCommand (takeTurn s).2 = none := by
    rcases h with h | h
    · simp only [acceptCommand, takeTurn_phase, h]
    · cases hp : s.phase <;> simp only [acceptCommand, takeTurn_phase, takeTurn_held, hp, h]
  simp only [step, ht, blockTurn, ha]

theorem step_of_moves {s : State} {m : EnvMove} (h : Moves s m) : step s = .next (applyMove m (takeTurn s).2) := by
  simp only [step, show (takeTurn s).1 = .env m from h]

/-- The pending request's answer comes. -/
theorem step_of_answers {s : State} {g : Answer} (h : Answers s g) : step s = .next (initAnswer g (takeTurn s).2) := by
  rw [step_of_moves h.2]
  simp only [applyMove, takeAnswer, takeTurn_phase, takeTurn_requests, h.1, if_pos]

/-- Any other answer comes. -/
theorem step_of_ignored_answer {s : State} {n : Nat} {g : Answer} (hm : Moves s (.answer n g))
    (h : s.phase = .waitPriv → n ≠ s.requests) : step s = .next (takeTurn s).2 := by
  rw [step_of_moves hm]
  cases hp : s.phase with
  | idle => simp only [applyMove, takeAnswer, takeTurn_phase, hp]
  | waitPriv => simp only [applyMove, takeAnswer, takeTurn_phase, takeTurn_requests, hp, if_neg (h hp)]

/-- Everything a command can do. -/
theorem exec_cases {i : Instr} {s t : State} (h : exec i s = .next t) :
    (i = .init ∧ t = privRequest s) ∨
      (i ≠ .init ∧ s.mode = .uninit ∧ t = raiseStatus .notReady s) ∨
        (i ≠ .init ∧ s.mode = .ready ∧ i.portValid = false ∧ t = raiseStatus .invalidPort s) ∨
          (∃ g d k, i = .setdir g d ∧ s.mode = .ready ∧ GroupBit g k ∧
            t = readModifyWrite (setDirBit k d) .dir s) ∨
            (∃ p m sel f, (i = .pinon p m ∧ f = setPins m ∨ i = .pinoff p m ∧ f = clearPins m) ∧
              s.mode = .ready ∧ Routes p sel ∧ t = readModifyWrite f sel s) ∨
              (∃ p b sel, i = .writepins p b ∧ s.mode = .ready ∧ Routes p sel ∧
                t = answered 0x0000#16 (memWrite sel b s)) ∨
                (∃ p sel f, ((∃ m, i = .readpin p m ∧ f = fun v => boolData (allSet m v)) ∨
                    i = .readport p ∧ f = fun v => v) ∧
                  s.mode = .ready ∧ Routes p sel ∧ t = readAndRespond f sel s) := by
  cases i with
  | init =>
    cases h
    exact .inl ⟨rfl, rfl⟩
  | setdir g d =>
    cases h
    cases hm : s.mode with
    | uninit => exact .inr (.inl ⟨by simp, rfl, by rw [whenReady_uninit _ hm]⟩)
    | ready =>
      cases hk : dirBit g with
      | none =>
        exact .inr (.inr (.inl ⟨by simp, rfl, dirBit_eq_none_iff.1 hk, by
          simp only [whenReady_ready _ hm]⟩))
      | some k =>
        exact .inr (.inr (.inr (.inl ⟨g, d, k, rfl, rfl, dirBit_eq_some_iff.1 hk, by
          simp only [whenReady_ready _ hm]⟩)))
  | pinon p m =>
    cases h
    rcases dataCommand_cases p (readModifyWrite (setPins m)) s with ⟨hm, he⟩ | ⟨hm, hp, he⟩ | ⟨sel, hm, hr, he⟩ <;> rw [he]
    · exact .inr (.inl ⟨by simp, hm, rfl⟩)
    · exact .inr (.inr (.inl ⟨by simp, hm, hp, rfl⟩))
    · exact .inr (.inr (.inr (.inr (.inl ⟨p, m, sel, _, .inl ⟨rfl, rfl⟩, hm, hr, rfl⟩))))
  | pinoff p m =>
    cases h
    rcases dataCommand_cases p (readModifyWrite (clearPins m)) s with ⟨hm, he⟩ | ⟨hm, hp, he⟩ | ⟨sel, hm, hr, he⟩ <;> rw [he]
    · exact .inr (.inl ⟨by simp, hm, rfl⟩)
    · exact .inr (.inr (.inl ⟨by simp, hm, hp, rfl⟩))
    · exact .inr (.inr (.inr (.inr (.inl ⟨p, m, sel, _, .inr ⟨rfl, rfl⟩, hm, hr, rfl⟩))))
  | writepins p b =>
    cases h
    rcases dataCommand_cases p (fun sel s => respond .ok 0x00#8 (memWrite sel b s)) s with
      ⟨hm, he⟩ | ⟨hm, hp, he⟩ | ⟨sel, hm, hr, he⟩ <;> rw [he]
    · exact .inr (.inl ⟨by simp, hm, rfl⟩)
    · exact .inr (.inr (.inl ⟨by simp, hm, hp, rfl⟩))
    · exact .inr (.inr (.inr (.inr (.inr (.inl ⟨p, b, sel, rfl, hm, hr, rfl⟩)))))
  | readpin p m =>
    cases h
    rcases dataCommand_cases p (readAndRespond fun v => boolData (allSet m v)) s with
      ⟨hm, he⟩ | ⟨hm, hp, he⟩ | ⟨sel, hm, hr, he⟩ <;> rw [he]
    · exact .inr (.inl ⟨by simp, hm, rfl⟩)
    · exact .inr (.inr (.inl ⟨by simp, hm, hp, rfl⟩))
    · exact .inr (.inr (.inr (.inr (.inr (.inr ⟨p, sel, _, .inl ⟨m, rfl, rfl⟩, hm, hr, rfl⟩)))))
  | readport p =>
    cases h
    rcases dataCommand_cases p (readAndRespond fun v => v) s with
      ⟨hm, he⟩ | ⟨hm, hp, he⟩ | ⟨sel, hm, hr, he⟩ <;> rw [he]
    · exact .inr (.inl ⟨by simp, hm, rfl⟩)
    · exact .inr (.inr (.inl ⟨by simp, hm, hp, rfl⟩))
    · exact .inr (.inr (.inr (.inr (.inr (.inr ⟨p, sel, _, .inr ⟨rfl, rfl⟩, hm, hr, rfl⟩)))))

/-- Everything a step can do, from the state `u` once the turn is taken: the block runs a decoded command or answers an
illegal word; a reset comes; a word is presented; the pending request is answered; or nothing happens. -/
theorem step_cases {s t : State} (h : step s = .next t) :
    ∃ u, (∃ sch n, u = { s with schedule := sch, turns := n }) ∧ u = (takeTurn s).2 ∧
      ((∃ w rest i, Accepts s w rest ∧ decode w = .instr i ∧ exec i { u with held := rest } = .next t) ∨
        (∃ w rest, Accepts s w rest ∧ (decode w = .reservedOp ∨ decode w = .reservedRsv) ∧
          t = raiseStatus .invalidOp { u with held := rest }) ∨
          (Moves s .reset ∧ t = hardReset u) ∨
            (∃ w, Moves s (.present w) ∧ t = { u with held := s.held ++ [w] }) ∨
              (∃ g, Answers s g ∧ t = initAnswer g u) ∨
                ((∀ w rest, ¬ Accepts s w rest) ∧ (∀ g, ¬ Answers s g) ∧ ¬ Moves s .reset ∧ t = u)) := by
  refine ⟨_, takeTurn_frame s, rfl, ?_⟩
  cases ht : (takeTurn s).1 with
  | block =>
    by_cases hw : s.phase = .waitPriv ∨ s.held = []
    · rw [step_of_block_idle ht hw] at h
      cases h
      refine .inr (.inr (.inr (.inr (.inr ⟨?_, ?_, ?_, rfl⟩))))
      · rintro w rest ⟨_, hp, hh⟩
        rcases hw with hw | hw
        · rw [hp] at hw; cases hw
        · rw [hh] at hw; cases hw
      · rintro g ⟨_, hm⟩; rw [Moves, ht] at hm; cases hm
      · intro hm; rw [Moves, ht] at hm; cases hm
    · have hp : s.phase = .idle := by cases hp : s.phase <;> simp_all
      cases hh : s.held with
      | nil => exact absurd (.inr hh) hw
      | cons w rest =>
        have ha : Accepts s w rest := ⟨ht, hp, hh⟩
        cases hd : decode w with
        | instr i => exact .inl ⟨w, rest, i, ha, hd, step_of_instr ha hd ▸ h⟩
        | reservedOp =>
          rw [step_of_illegal ha (.inl hd)] at h
          cases h
          exact .inr (.inl ⟨w, rest, ha, .inl hd, rfl⟩)
        | reservedRsv =>
          rw [step_of_illegal ha (.inr hd)] at h
          cases h
          exact .inr (.inl ⟨w, rest, ha, .inr hd, rfl⟩)
  | env m =>
    have hm : Moves s m := ht
    have hna : ∀ w rest, ¬ Accepts s w rest := by rintro w rest ⟨hb, _⟩; rw [ht] at hb; cases hb
    have only : ∀ m', Moves s m' → m = m' := by intro m' h'; rw [Moves, ht] at h'; cases h'; rfl
    rw [step_of_moves hm] at h
    cases h
    cases m with
    | idle => exact .inr (.inr (.inr (.inr (.inr ⟨hna, fun g h => (nomatch only _ h.2), fun h => (nomatch only _ h), rfl⟩))))
    | readResponse =>
      exact .inr (.inr (.inr (.inr (.inr ⟨hna, fun g h => (nomatch only _ h.2), fun h => (nomatch only _ h), rfl⟩))))
    | present w => exact .inr (.inr (.inr (.inl ⟨w, hm, by simp only [applyMove, takeTurn_held]⟩)))
    | reset => exact .inr (.inr (.inl ⟨hm, rfl⟩))
    | answer n g =>
      by_cases ha : s.phase = .waitPriv ∧ n = s.requests
      · obtain ⟨hp, rfl⟩ := ha
        have hA : Answers s g := ⟨hp, hm⟩
        have h1 := step_of_answers hA
        rw [step_of_moves hm] at h1
        injection h1 with h1
        exact .inr (.inr (.inr (.inr (.inl ⟨g, hA, h1⟩))))
      · have h1 := step_of_ignored_answer hm fun hp hn => ha ⟨hp, hn⟩
        rw [step_of_moves hm] at h1
        injection h1 with h1
        refine .inr (.inr (.inr (.inr (.inr ⟨hna, ?_, fun h => (nomatch only _ h), h1⟩))))
        rintro g' ⟨hp, h'⟩
        injection only _ h' with hn
        exact ha ⟨hp, hn⟩

end Sys2Proof.Machine
end

