-- ==== Sys2Proof/Tests/Slice0.lean ====
section
/-! SUPPORT. Tests. Every expected value is from spec/95_test_vectors.md or from the rule named; the last part shows, for each
statement with hypotheses, states and operands that meet them. -/

namespace Sys2Proof.Tests

open Sys2Proof Sys2Proof.Machine

/-! ## Well-formedness: the checks refuse their ill-formed terms -/

/-- 30_encoding.md R63: C is no direction group. -/
theorem test_portValid_refuses_setdir_c : (Instr.setdir .c .input).portValid = false := by decide

/-- R63: the nibble variants are no data ports. -/
theorem test_portValid_refuses_nibble_data :
    (Instr.pinon .cLow 1).portValid = false ∧ (Instr.pinoff .cHigh 1).portValid = false ∧
      (Instr.writepins .cHigh 1).portValid = false ∧ (Instr.readpin .n5 1).portValid = false ∧
        (Instr.readport .n7).portValid = false := by decide

/-- R73: every term has an encoding, an invalid port too. -/
theorem test_wellFormed_admits_invalid_port : (Instr.setdir .n6 .output).wellFormed = true := by decide

/-! ## Decoding: words written out from 30_encoding.md R62, `OOOPPPrrAAAAAAAA` (95 §2.1) -/

theorem test_decode_init : decode 0b0000000000000000#16 = .instr .init := by decide

theorem test_decode_init_ignores_port_and_arg : decode 0b0001110011111111#16 = .instr .init := by decide

theorem test_decode_setdir_a_input : decode 0b0010000000000001#16 = .instr (.setdir .a .input) := by decide

theorem test_decode_setdir_ignores_arg : decode 0b0010000011111110#16 = .instr (.setdir .a .output) := by decide

theorem test_decode_setdir_cHigh : decode 0b0010110000000001#16 = .instr (.setdir .cHigh .input) := by decide

theorem test_decode_setdir_n5 : decode 0b0011010000000001#16 = .instr (.setdir .n5 .input) := by decide

theorem test_decode_pinon : decode 0b0100000000001111#16 = .instr (.pinon .a 0x0F#8) := by decide

theorem test_decode_pinoff : decode 0b0110010010000001#16 = .instr (.pinoff .b 0x81#8) := by decide

theorem test_decode_writepins : decode 0b1000000010100101#16 = .instr (.writepins .a 0xA5#8) := by decide

theorem test_decode_readpin : decode 0b1010100000000001#16 = .instr (.readpin .c 0x01#8) := by decide

theorem test_decode_readport_ignores_arg : decode 0b1100010011111111#16 = .instr (.readport .b) := by decide

theorem test_decode_reserved_op : decode 0xE000#16 = .reservedOp ∧ decode 0xFFFF#16 = .reservedOp := by decide

theorem test_decode_reserved_rsv :
    decode 0x0100#16 = .reservedRsv ∧ decode 0x0200#16 = .reservedRsv ∧ decode 0x4300#16 = .reservedRsv := by decide

theorem test_encode_spec_words :
    encode .init = 0x0000#16 ∧ encode (.setdir .cLow .input) = 0x3001#16 ∧ encode (.pinon .c 0x0F#8) = 0x480F#16 ∧
      encode (.pinoff .a 0xA0#8) = 0x60A0#16 ∧ encode (.writepins .cHigh 0xFF#8) = 0x8CFF#16 ∧
        encode (.readpin .a 0x81#8) = 0xA081#16 ∧ encode (.readport .b) = 0xC400#16 := by decide

theorem test_decodeTableWord : decodeTableWord 16 0x6000 = some (.pinoff .a 0x00#8) := by decide

/-! ## Single steps (95 §2.2 to §2.8) -/

/-- The state after a step, if it answers one. -/
def after : Host.Outcome State Fault Refusal → Option State
  | .next s => some s
  | .fault _ => none
  | .refused _ => none

/-- READY under `Store` with the given direction byte and data cells, as INIT and writes leave it. -/
def readyState (dir : Byte) (a b c : Cell) : State :=
  { State.reset with
    mode := .ready
    readSource := .store
    x := { base := .val 0x44#8, dir := .val dir, dataA := a, dataB := b, dataC := c }
    trace := [.privRequest, .busWrite .base 0x44#8, .busWrite .dir dir] }

/-- A state that waits for the answer to its request, the first one, with the next turns laid down. -/
def waitingState (turns : List Turn) : State :=
  { State.reset with phase := .waitPriv, trace := [.privRequest], requests := 1, schedule := turns }

/-- One step with a word presented. -/
def run1 (s : State) (w : Nat) : Option State := after (step (s.withFetchWord 16 w))

/-- §2.2, `0x1CFF` from reset. -/
theorem test_init_requests :
    (run1 State.reset 0x1CFF).map (fun t => (t.phase, t.mode, t.trace)) = some (.waitPriv, .uninit, [.privRequest]) := by
  decide

/-- §2.2, the answer GRANT. -/
theorem test_init_granted :
    (after (step (waitingState [.env (.answer 1 .grant)]))).map (fun t => (t.phase, t.mode, t.rsp)) =
        some (.idle, .ready, some 0x0000#16) ∧
      (after (step (waitingState [.env (.answer 1 .grant)]))).map (fun t => (t.x.base, t.x.dir, t.x.dataA)) =
          some (.val 0x44#8, .val 0x00#8, .unwritten) ∧
        (after (step (waitingState [.env (.answer 1 .grant)]))).map (fun t => t.trace) =
          some [.privRequest, .busWrite .base 0x44#8, .busWrite .dir 0x00#8] :=
  ⟨rfl, rfl, rfl⟩

/-- §2.3: `0x08`, not `0x09`. -/
theorem test_setdir_cHigh_input :
    (run1 (readyState 0x00#8 .unwritten .unwritten .unwritten) 0x2C01).map (fun t => (t.x.dir, t.rsp)) =
      some (.val 0x08#8, some 0x0000#16) := by
  decide

/-- §2.3: `0x1B`, C_HIGH OUTPUT. -/
theorem test_setdir_cHigh_output :
    (run1 (readyState 0x1B#8 .unwritten .unwritten .unwritten) 0x2C00).map (fun t => t.x.dir) = some (.val 0x13#8) := by
  decide

/-- §2.4: A=`0xA5`, PINON A, 0x0F. -/
theorem test_pinon_a :
    (run1 (readyState 0x00#8 (.val 0xA5#8) .unwritten .unwritten) 0x400F).map (fun t => (t.x.dataA, t.rsp)) =
      some (.val 0xAF#8, some 0x0000#16) := by
  decide

/-- §2.4: C=U, PINON C, PIN0, for whatever is drawn. -/
theorem test_pinon_unwritten :
    (run1 (readyState 0x00#8 .unwritten .unwritten .unwritten) 0x4801).map (fun t => t.x.dataC) =
      some (.val (Config.draw 0 ||| 0x01#8)) := rfl

/-- §2.4: C=`0x5A`, PINOFF C, 0x0F. -/
theorem test_pinoff_c :
    (run1 (readyState 0x00#8 .unwritten .unwritten (.val 0x5A#8)) 0x680F).map (fun t => (t.x.dataC, t.rsp)) =
      some (.val 0x50#8, some 0x0000#16) := by
  decide

/-- §2.4: PINOFF C_HIGH is INVALID_PORT with no effect. -/
theorem test_pinoff_nibble :
    (run1 (readyState 0x00#8 .unwritten .unwritten (.val 0x5A#8)) 0x6C01).map (fun t => (t.x.dataC, t.rsp, t.trace.length)) =
      some (.val 0x5A#8, some 0x0300#16, 3) := by
  decide

/-- §2.5: B=`0xFF`, WRITEPINS B, 0x00. -/
theorem test_writepins_b :
    (run1 (readyState 0x00#8 .unwritten (.val 0xFF#8) .unwritten) 0x8400).map (fun t => (t.x.dataB, t.rsp)) =
      some (.val 0x00#8, some 0x0000#16) := by
  decide

/-- §2.5: WRITEPINS C_LOW writes nothing. -/
theorem test_writepins_nibble :
    (run1 (readyState 0x00#8 .unwritten .unwritten (.val 0x12#8)) 0x9055).map (fun t => (t.x.dataC, t.rsp)) =
      some (.val 0x12#8, some 0x0300#16) := by
  decide

/-- §2.6: A=`0x0F`, mask `0x81`: partial, so false. -/
theorem test_readpin_partial :
    (run1 (readyState 0x00#8 (.val 0x0F#8) .unwritten .unwritten) 0xA081).map (fun t => t.rsp) = some (some 0x0000#16) := by
  decide

/-- §2.6: A=`0x0F`, mask `0x03`: true. -/
theorem test_readpin_all :
    (run1 (readyState 0x00#8 (.val 0x0F#8) .unwritten .unwritten) 0xA003).map (fun t => t.rsp) = some (some 0x0001#16) := by
  decide

/-- §2.7: B=`0x3C`. -/
theorem test_readport_b :
    (run1 (readyState 0x00#8 .unwritten (.val 0x3C#8) .unwritten) 0xC400).map (fun t => t.rsp) = some (some 0x003C#16) := by
  decide

/-- §2.7: UNINIT, READPORT A. -/
theorem test_readport_uninit : (run1 State.reset 0xC000).map (fun t => (t.rsp, t.trace)) = some (some 0x0200#16, []) := by
  decide

/-- §2.8: UNINIT, `0xE801`: INVALID_OP wins over NOT_READY. -/
theorem test_illegal_word_first : (run1 State.reset 0xE801).map (fun t => t.rsp) = some (some 0x0400#16) := by decide

/-- 40_init.md R81: a denial while READY keeps READY and writes nothing. -/
theorem test_init_denied_while_ready :
    (after (step { readyState 0x1B#8 .unwritten .unwritten .unwritten with
        phase := .waitPriv, schedule := [.env (.answer 0 .deny)] })).map (fun t => (t.mode, t.phase, t.rsp, t.x.dir)) =
      some (.ready, .idle, some 0x0100#16, .val 0x1B#8) := by
  decide

/-- 70_reset_and_hazards.md R150: a late grant of an abandoned request, while a later INIT waits for its own answer. -/
theorem test_late_answer_ignored :
    (after (step { waitingState [.env (.answer 1 .grant)] with requests := 2 })).map (fun t => (t.mode, t.phase, t.rsp)) =
      some (.uninit, .waitPriv, none) := by
  decide

/-- R150, R171: a reset in IDLE while a word is held. -/
theorem test_reset_with_a_word_held :
    (after (step { readyState 0x1B#8 .unwritten .unwritten .unwritten with
        held := [0x0000#16], schedule := [.env .reset] })).map (fun t => (t.mode, t.x.dir, t.held)) =
      some (.uninit, .unwritten, [0x0000#16]) := by
  decide

/-! ## Witnesses: hypotheses of the statements that some state and operands meet -/

/-- READY, every data register written, `Store`. -/
def s0 : State := readyState 0x1B#8 (.val 0xA5#8) (.val 0x00#8) (.val 0xFF#8)

/-- READY, `External`, no data register written. -/
def s1 : State := { readyState 0x00#8 .unwritten .unwritten .unwritten with readSource := .external }

/-- READY, `Store`, no data register written. -/
def s2 : State := readyState 0x00#8 .unwritten .unwritten .unwritten

/-- A state whose port holds the words, with the turn the block's. -/
def holding (ws : List Word) (s : State) : State := { s with held := ws, schedule := [.block] }

/-- A state with the environment's move laid down. -/
def moving (m : EnvMove) (s : State) : State := { s with schedule := [.env m] }

/-- ResetInAnyStateRestoresResetValues, ResetChangesNothingElse: a reset while waiting for the answer, and one while a word is
held. -/
theorem test_witness_reset : Moves (waitingState [.env .reset]) .reset ∧ Moves (moving .reset (holding [0xC000#16] s0)) .reset :=
  ⟨rfl, rfl⟩

/-- Request 1 waits; a reset, then an INIT, then the answer to request 1 are to come. -/
def abandoning : State := { waitingState [.env .reset, .block, .env (.answer 1 .grant)] with held := [0x0000#16] }

/-- AbandonedRequestsAnswerIsIgnored: a run in which the answer to request 1 comes while the later INIT waits; and an ignored
answer in IDLE. -/
theorem test_witness_abandoned :
    (abandoning.phase = .waitPriv ∧ Moves abandoning .reset ∧
        ∃ u v : State, step abandoning = .next u ∧ Sys2Proof.core.run 1 u = .next v ∧ v.phase = .waitPriv ∧
          Moves v (.answer abandoning.requests .grant)) ∧
      Moves (moving (.answer 0 .deny) s0) (.answer 0 .deny) ∧ s0.phase ≠ .waitPriv :=
  ⟨⟨rfl, rfl, _, _, rfl, rfl, rfl, rfl⟩, rfl, by decide⟩

/-- Two READPORT A of an unwritten register, one after the other. -/
def drawing : State := { s1 with held := [0xC000#16, 0xC000#16], schedule := [.block, .block] }

/-- DrawsAreNeverGivenTwice: a step that makes a drawn read, and a run after it; one that makes a read that is not drawn. -/
theorem test_witness_draws :
    (∃ t u : State, step drawing = .next t ∧
        t.trace = drawing.trace ++ ([] ++ .busRead .dataA (Config.draw 0) :: []) ∧
          Sys2Proof.core.run 1 t = .next u ∧ u.rsp = some (0#8 ++ Config.draw 1) ∧ u.draws = 2) ∧
      DrawnRead drawing .dataA ∧
        (∃ t, step (holding [0xC000#16] s0) = .next t ∧
          t.trace = (holding [0xC000#16] s0).trace ++ [.busRead .dataA 0xA5#8]) ∧
          ¬ DrawnRead (holding [0xC000#16] s0) .dataA :=
  ⟨⟨_, _, rfl, rfl, rfl, rfl, rfl⟩, .inr rfl, ⟨_, rfl, rfl⟩, by
    rintro (⟨_, h⟩ | h)
    · exact ReadSource.noConfusion h
    · exact Cell.noConfusion h⟩

/-- RegisterReadReturnsStoredByteOrDraw, RegisterReadHasNoSideEffect: each kind of read. -/
theorem test_witness_reads :
    (Sel.dataC = .dataA ∨ Sel.dataC = .dataB ∨ Sel.dataC = .dataC) ∧ s1.readSource = .external ∧
      State.reset.x.get .base = .unwritten ∧ DrawnRead State.reset .dir ∧
        s1.x.get .dir = .val 0x00#8 ∧ s0.readSource = .store ∧ s0.x.get .dataA = .val 0xA5#8 ∧ s0.x.get .base = .val 0x44#8 :=
  ⟨.inr (.inr rfl), rfl, rfl, .inr rfl, rfl, rfl, rfl, rfl⟩

/-- RegisterWriteTakesEffectAtOnce: another cell. -/
theorem test_witness_other_cell : Sel.base ≠ .dataC := by decide

/-- DecodeOfEncodeIsIdentity, ReadyCommandsCompleteWithOk: a well-formed instruction with an extreme operand; the first and
last valid port of a command. -/
theorem test_witness_instructions :
    (Instr.readpin .n7 0xFF#8).wellFormed = true ∧ (Instr.pinon .a 0x00#8).portValid = true ∧
      (Instr.readport .c).portValid = true ∧ (Instr.setdir .cLow .input).portValid = true ∧
        Instr.readport .c ≠ .init ∧ s0.mode = .ready := by decide

/-- OpcodeMapRowsDecideTheCommand: the last word of a row, and accepted words outside all rows at both ends. -/
theorem test_witness_opcode_rows :
    (0x1CFF#16 &&& 0xE300#16 = 0x0000#16) ∧ (0x3CFF#16 &&& 0xE300#16 = 0x2000#16) ∧
      (0x5CFF#16 &&& 0xE300#16 = 0x4000#16) ∧ (0x7CFF#16 &&& 0xE300#16 = 0x6000#16) ∧
        (0x9CFF#16 &&& 0xE300#16 = 0x8000#16) ∧ (0xBCFF#16 &&& 0xE300#16 = 0xA000#16) ∧
          (0xDCFF#16 &&& 0xE300#16 = 0xC000#16) ∧ Accepts (holding [0xE000#16] s0) 0xE000#16 [] ∧
            (∀ m ∈ [0x0000#16, 0x2000#16, 0x4000#16, 0x6000#16, 0x8000#16, 0xA000#16, 0xC000#16],
              0xE000#16 &&& 0xE300#16 ≠ m) ∧
              ∀ m ∈ [0x0000#16, 0x2000#16, 0x4000#16, 0x6000#16, 0x8000#16, 0xA000#16, 0xC000#16],
                0x0100#16 &&& 0xE300#16 ≠ m :=
  ⟨by decide, by decide, by decide, by decide, by decide, by decide, by decide, ⟨rfl, rfl, rfl⟩, by simp, by simp⟩

/-- OperandsAreTakenFromTheirFields: PORT at both ends of its range. -/
theorem test_witness_port_numbers :
    ((0 : Nat), Port.a) ∈ [(0, Port.a), (1, .b), (2, .c), (3, .cHigh), (4, .cLow), (5, .n5), (6, .n6), (7, .n7)] ∧
      ((7 : Nat), Port.n7) ∈ [(0, Port.a), (1, .b), (2, .c), (3, .cHigh), (4, .cLow), (5, .n5), (6, .n6), (7, .n7)] := by
  decide

/-- StepRunsTheDecodedCommand, PortTakesOneCommandAtATime, FirstApplicableStatusIsReported: accepted words, legal and not, in both
modes. -/
theorem test_witness_accepted_words :
    Accepts (holding [0x400F#16, 0x0000#16] s0) 0x400F#16 [0x0000#16] ∧ decode 0x400F#16 = .instr (.pinon .a 0x0F#8) ∧
      decode 0x400F#16 ≠ .instr .init ∧ Accepts (holding [0x0000#16] s0) 0x0000#16 [] ∧ decode 0x0000#16 = .instr .init ∧
        Accepts (holding [0xFFFF#16] State.reset) 0xFFFF#16 [] ∧ (0xFFFF#16).extractLsb' 13 3 = 7#3 ∧
          (0x0100#16).extractLsb' 8 2 ≠ 0#2 ∧ State.reset.mode = .uninit ∧
            decode 0x2801#16 = .instr (.setdir .c .input) ∧ (Instr.setdir .c .input).portValid = false :=
  ⟨⟨rfl, rfl, rfl⟩, by decide, by decide, ⟨rfl, rfl, rfl⟩, by decide, ⟨rfl, rfl, rfl⟩, by decide, by decide, rfl, by decide,
    by decide⟩

/-- EnvironmentMovesAtAnyTime, PortTakesOneCommandAtATime, ResponseRegisterHoldsTheLastResponse: each move, waiting for an answer,
idle, and with a word held; a turn of the block that can accept nothing; a schedule laid down and an empty one. -/
theorem test_witness_moves :
    Moves (waitingState [.env .idle]) .idle ∧ Moves (moving .readResponse (holding [0x0000#16] s0)) .readResponse ∧
      Moves (waitingState [.env (.present 0xFFFF#16)]) (.present 0xFFFF#16) ∧
        Moves (moving (.present 0x0000#16) s0) (.present 0x0000#16) ∧ Answers (waitingState [.env (.answer 1 .grant)]) .grant ∧
          ((takeTurn (waitingState [.block])).1 = .block ∧ (waitingState [.block]).phase = .waitPriv) ∧
            ((takeTurn (holding [] s0)).1 = .block ∧ (holding [] s0).held = []) ∧
              (waitingState [.env .idle]).schedule = [Turn.env .idle] ∧ State.reset.schedule = [] :=
  ⟨rfl, rfl, rfl, rfl, ⟨rfl, rfl⟩, ⟨rfl, rfl⟩, ⟨rfl, rfl⟩, rfl, rfl⟩

/-- UnansweredInitHangsThePort: two steps without an answer, one of them the block's. -/
theorem test_witness_unanswered :
    (waitingState [.block, .env (.present 0x0000#16)]).phase = .waitPriv ∧
      ∀ k u, k < 2 → Sys2Proof.core.run k (waitingState [.block, .env (.present 0x0000#16)]) = .next u →
        (∀ g, ¬ Moves u (.answer 1 g)) ∧ ¬ Moves u .reset := by
  refine ⟨rfl, fun k u hk h => ?_⟩
  match k, hk with
  | 0, _ =>
    cases h
    exact ⟨fun g => by cases g <;> unfold Moves <;> decide, by unfold Moves; decide⟩
  | 1, _ =>
    have h1 : Sys2Proof.core.run 1 (waitingState [.block, .env (.present 0x0000#16)]) =
        .next (waitingState [.env (.present 0x0000#16)]) := rfl
    rw [h1] at h
    cases h
    exact ⟨fun g => by cases g <;> unfold Moves <;> decide, by unfold Moves; decide⟩

/-- ModeChangesOnlyByGrantOrReset: a grant from UNINIT, and a reset from READY. -/
theorem test_witness_mode_changes :
    (∃ t, step (waitingState [.env (.answer 1 .grant)]) = .next t ∧ t.mode = .ready ∧
        (waitingState [.env (.answer 1 .grant)]).mode = .uninit) ∧
      ∃ t, step (moving .reset s0) = .next t ∧ t.mode = .uninit ∧ s0.mode = .ready :=
  ⟨⟨_, rfl, rfl, rfl⟩, _, rfl, rfl, rfl⟩

/-- EachInitMakesExactlyOneRequest: an accepted INIT, and a step that accepts none and is no reset. -/
theorem test_witness_requests :
    (∃ w rest, Accepts (holding [0x1CFF#16] State.reset) w rest ∧ decode w = .instr .init) ∧
      (∀ w rest, Accepts (waitingState [.env .idle]) w rest → decode w ≠ .instr .init) ∧
        ¬ Moves (waitingState [.env .idle]) .reset :=
  ⟨⟨_, _, ⟨rfl, rfl, rfl⟩, by decide⟩, fun _ _ h => Phase.noConfusion h.2.1, by unfold Moves; decide⟩

/-- The invariants' hypotheses are met by a READY state that takes a step, ReadSourceNeverChanges's among them. -/
theorem test_witness_ready_invariants :
    ReadyRegistersWritten s2 ∧ UnassignedDirBitsZero s0 ∧ TraceConsistent s2 ∧ ResponsesLegal s2 ∧ UninitReachesNothing s2 ∧
      PendingRequestIsLast (waitingState []) ∧ s2.mode = .ready ∧ (∃ t, step (holding [0x2001#16] s2) = .next t) ∧
        s2.x.get .base = .val 0x44#8 ∧
          ¬ Moves (holding [0x2001#16] s2) .reset := by
  refine ⟨fun _ => ⟨⟨_, rfl⟩, _, rfl⟩, fun _ => ⟨_, rfl, by decide⟩, ⟨?_, ?_⟩, ⟨?_, rfl⟩, ?_, fun _ => rfl, rfl, ⟨_, rfl⟩,
    rfl, by unfold Moves; decide⟩
  · intro sel
    cases sel <;> rfl
  · intro b a sel v w h
    have hm : Event.busRead sel v ∈ s2.trace := by rw [h]; simp
    simp [s2, readyState] at hm
  · intro r h
    cases h
  · intro h
    cases h

/-- UninitStaysUntouched: UNINIT with a request recorded. -/
theorem test_witness_uninit : (waitingState []).mode = .uninit ∧ UninitReachesNothing (waitingState []) :=
  ⟨rfl, fun _ => ⟨fun sel => by cases sel <;> rfl, fun e h => by simpa [waitingState] using h⟩⟩

/-- InitRequestsThenProgramsTheRegisters, InitCompletesWhenAnswered, InitWhileReadyKeepsReady, ErrorsHaveNoEffectOnRegisters,
GrantedInitTwiceEqualsOnce: the answers, in both modes, and two INIT words held. -/
theorem test_witness_init :
    Answers (waitingState [.env (.answer 1 .deny)]) .deny ∧ Answers (waitingState [.env (.answer 1 .grant)]) .grant ∧
      (moving (.answer 1 .deny) s0).schedule = .env (.answer (s0.requests + 1) .deny) :: [] ∧ s0.mode = .ready ∧
        (holding [0x0000#16, 0x1CFF#16] s0).held = 0x0000#16 :: 0x1CFF#16 :: [] ∧ s0.phase = .idle ∧
          (0x1CFF#16 &&& 0xE300#16 = 0x0000#16) ∧
            ({ s0 with schedule := [.block, .env (.answer 1 .grant), .block, .env (.answer 2 .grant)] } : State).schedule =
              .block :: .env (.answer (s0.requests + 1) .grant) ::
                .block :: .env (.answer (s0.requests + 2) .grant) :: [] :=
  ⟨⟨rfl, rfl⟩, ⟨rfl, rfl⟩, rfl, rfl, rfl, rfl, by decide, rfl⟩

/-- SetdirSetsTheGroupBit, SetdirGroupsAreIndependent: each group, the invalid ones at both ends, and READY with the register
written. -/
theorem test_witness_setdir :
    GroupBit .a 4 ∧ GroupBit .b 1 ∧ GroupBit .cHigh 3 ∧ GroupBit .cLow 0 ∧
      decide (Port.c = .a ∨ Port.c = .b ∨ Port.c = .cHigh ∨ Port.c = .cLow) = false ∧
        decide (Port.n7 = .a ∨ Port.n7 = .b ∨ Port.n7 = .cHigh ∨ Port.n7 = .cLow) = false ∧
          s0.mode = .ready ∧ s0.x.get .dir = .val 0x1B#8 ∧ Port.cHigh ≠ .cLow ∧
            (∃ t u, exec (.setdir .cHigh .output) s0 = .next t ∧ exec (.setdir .cLow .output) t = .next u) ∧
              (0x3CFF#16 &&& 0xE300#16 = 0x2000#16) ∧ (0x3CFF#16).extractLsb' 10 3 = Port.n7.code :=
  ⟨.inl ⟨rfl, rfl⟩, .inr (.inl ⟨rfl, rfl⟩), .inr (.inr (.inl ⟨rfl, rfl⟩)), .inr (.inr (.inr ⟨rfl, rfl⟩)), by decide, by decide,
    rfl, rfl, by decide, ⟨_, _, rfl, rfl⟩, by decide, by decide⟩

/-- The statements on data commands: each valid port, an invalid one at both ends, READY under `Store` (written and unwritten) and
under `External`, a nonzero RSV. -/
theorem test_witness_data_commands :
    Routes .a .dataA ∧ Routes .b .dataB ∧ Routes .c .dataC ∧
      decide (Port.cHigh = .a ∨ Port.cHigh = .b ∨ Port.cHigh = .c) = false ∧
        decide (Port.n7 = .a ∨ Port.n7 = .b ∨ Port.n7 = .c) = false ∧
          s0.mode = .ready ∧ s0.readSource = .store ∧ s0.x.get .dataC = .val 0xFF#8 ∧
            s1.mode = .ready ∧ s1.readSource = .external ∧ s2.mode = .ready ∧ s2.readSource = .store ∧
              s2.x.get .dataC = .unwritten ∧ (0x43FF#16).extractLsb' 13 3 = 2#3 ∧ (0x43FF#16).extractLsb' 8 2 ≠ 0#2 :=
  ⟨.inl ⟨rfl, rfl⟩, .inr (.inl ⟨rfl, rfl⟩), .inr (.inr ⟨rfl, rfl⟩), by decide, by decide, rfl, rfl, rfl, rfl, rfl, rfl, rfl, rfl,
    by decide, by decide⟩

/-- PinCommandsActLaneByLane: the two commands in a row; and a mask with a clear bit, for PinCommandsWriteSensedLevelsBack. -/
theorem test_witness_pin_sequences :
    (∃ t u, exec (.pinon .a 0x00#8) s2 = .next t ∧ exec (.readport .a) t = .next u) ∧
      (∃ t u, exec (.pinoff .c 0xFF#8) s2 = .next t ∧ exec (.readport .c) t = .next u) ∧
        (∃ t u, exec (.pinon .b 0xFF#8) s2 = .next t ∧ exec (.pinon .b 0xFF#8) t = .next u) ∧
          (∃ t u, exec (.pinoff .b 0x01#8) s2 = .next t ∧ exec (.pinoff .b 0x01#8) t = .next u) ∧
            (0x7F#8).getLsbD 7 = false :=
  ⟨⟨_, _, rfl, rfl⟩, ⟨_, _, rfl, rfl⟩, ⟨_, _, rfl, rfl⟩, ⟨_, _, rfl, rfl⟩, by decide⟩

/-- ReadpinAgreesWithReadport: written under `Store`. ReadCommandsWriteNoRegister, DataCommandsIgnoreDirection: a command of each
kind that answers, OK and not. -/
theorem test_witness_read_commands :
    s0.readSource = .store ∧ s0.x.get .dataA = .val 0xA5#8 ∧
      (∃ t, exec (.readpin .a 0xA5#8) s0 = .next t) ∧ (∃ t, exec (.readport .n5) s0 = .next t) ∧
        DataCommand (.readport .c) ∧ DataCommand (.writepins .a 0xFF#8) ∧ ∃ t, exec (.writepins .a 0xFF#8) s0 = .next t :=
  ⟨rfl, rfl, ⟨_, rfl⟩, ⟨_, rfl⟩, ⟨.c, 0, .inr (.inr (.inr (.inr rfl)))⟩, ⟨.a, 0xFF#8, .inr (.inr (.inl rfl))⟩, _, rfl⟩

/-- ErrorsHaveNoEffectOnRegisters, FirstApplicableStatusIsReported: a step that reports each error. -/
theorem test_witness_errors :
    (∃ t, step (holding [0x4001#16] State.reset) = .next t ∧ t.responses = State.reset.responses ++ [0x0200#16]) ∧
      (∃ t, step (holding [0x2801#16] s0) = .next t ∧ t.responses = s0.responses ++ [0x0300#16]) ∧
        (∃ t, step (holding [0xE801#16] s0) = .next t ∧ t.responses = s0.responses ++ [0x0400#16]) ∧
          (∃ t, step (waitingState [.env (.answer 1 .deny)]) = .next t ∧ t.responses = (waitingState []).responses ++ [0x0100#16]) ∧
            statusField 0x0200#16 ≠ 0#3 ∧ statusField 0x0100#16 = 1#3 :=
  ⟨⟨_, rfl, rfl⟩, ⟨_, rfl, rfl⟩, ⟨_, rfl, rfl⟩, ⟨_, rfl, rfl⟩, by decide, by decide⟩

/-- CommandsReachOnlyTheirRegister, CommandsLeaveTheRestAlone: an INIT and a data command that answer, a select not reached, and the
answer's step. -/
theorem test_witness_frames :
    (∃ t, exec .init s0 = .next t) ∧ (∃ t, exec (.pinon .a 0x01#8) s0 = .next t) ∧ ¬ Reaches (.pinon .a 0x01#8) .dataB ∧
      Instr.pinon .a 0x01#8 ≠ .init ∧ (∃ t, step (waitingState [.env (.answer 1 .grant)]) = .next t) ∧ Sel.dataA ≠ .base ∧
        Sel.dataA ≠ .dir :=
  ⟨⟨_, rfl⟩, ⟨_, rfl⟩, by simp [Reaches, Routes], by simp, ⟨_, rfl⟩, by decide, by decide⟩

end Sys2Proof.Tests
end

/-! ## The read source is a parameter (00_scope.md R7): every operation, command and step keeps it -/

namespace Sys2Proof.Machine

@[simp] theorem answered_readSource (w : Word) (s : State) : (answered w s).readSource = s.readSource := rfl

@[simp] theorem memRead_readSource (sel : Sel) (s : State) : (memRead sel s).2.readSource = s.readSource := by
  obtain ⟨v, n, -, he⟩ := memRead_spec sel s
  rw [he]

@[simp] theorem readModifyWrite_readSource (f : Byte → Byte) (sel : Sel) (s : State) :
    (readModifyWrite f sel s).readSource = s.readSource := by
  simp [readModifyWrite]

@[simp] theorem readAndRespond_readSource (f : Byte → Byte) (sel : Sel) (s : State) :
    (readAndRespond f sel s).readSource = s.readSource := by
  simp [readAndRespond]

@[simp] theorem initAnswer_readSource (g : Answer) (s : State) : (initAnswer g s).readSource = s.readSource := by
  cases g with
  | deny => rw [initAnswer_deny, answered_readSource]
  | grant => rw [initAnswer_grant, answered_readSource]

/-- No command changes the read source. -/
theorem exec_readSource {i : Instr} {s t : State} (h : exec i s = .next t) : t.readSource = s.readSource := by
  obtain ⟨-, rfl⟩ | ⟨-, -, rfl⟩ | ⟨-, -, -, rfl⟩ | ⟨g, d, k, -, -, -, rfl⟩ | ⟨p, m, sel, f, -, -, -, rfl⟩ |
    ⟨p, b, sel, -, -, -, rfl⟩ | ⟨p, sel, f, -, -, -, rfl⟩ := exec_cases h
  · exact privRequest_readSource s
  · exact raiseStatus_readSource .notReady s
  · exact raiseStatus_readSource .invalidPort s
  · exact readModifyWrite_readSource (setDirBit k d) .dir s
  · exact readModifyWrite_readSource f sel s
  · rw [answered_readSource, memWrite_readSource]
  · exact readAndRespond_readSource f sel s

/-- Settles O18, by the cases of a step: once the turn is taken, it runs a command, answers an illegal word, resets, holds
one more word, takes the answer to INIT or does nothing, and each of these keeps the read source. -/
theorem readSourceNeverChanges : Obligations.ReadSourceNeverChanges := by
  intro s t h
  obtain ⟨u, -, rfl, hcase⟩ := step_cases h
  have hturn : (takeTurn s).2.readSource = s.readSource := takeTurn_readSource s
  obtain ⟨_, rest, i, -, -, hexec⟩ | ⟨_, rest, -, -, rfl⟩ | ⟨-, rfl⟩ | ⟨w, -, rfl⟩ | ⟨g, -, rfl⟩ | ⟨-, -, -, rfl⟩ := hcase
  · exact (exec_readSource hexec).trans hturn
  · exact (raiseStatus_readSource _ _).trans hturn
  · exact (hardReset_readSource _).trans hturn
  · exact hturn
  · exact (initAnswer_readSource g _).trans hturn
  · exact hturn

end Sys2Proof.Machine

/-! ## What a command and an answer do on the register bus (20_memory.md R44, R45) -/

namespace Sys2Proof.Machine

/-- `u` is `s` after some accesses over the register bus, each of a register in `R`. -/
inductive BusAccesses (R : Sel → Prop) (s : State) : State → Prop
  | none : BusAccesses R s s
  | read {u : State} {sel : Sel} (h : BusAccesses R s u) (hsel : R sel) : BusAccesses R s (memRead sel u).2
  | write {u : State} {sel : Sel} (v : Byte) (h : BusAccesses R s u) (hsel : R sel) :
      BusAccesses R s (memWrite sel v u)

theorem busAccesses_readModifyWrite {R : Sel → Prop} {sel : Sel} (f : Byte → Byte) (s : State) (hsel : R sel) :
    ∃ u r, BusAccesses R s u ∧ readModifyWrite f sel s = answered r u :=
  ⟨_, _, (BusAccesses.none.read hsel).write _ hsel, rfl⟩

theorem busAccesses_readAndRespond {R : Sel → Prop} {sel : Sel} (f : Byte → Byte) (s : State) (hsel : R sel) :
    ∃ u r, BusAccesses R s u ∧ readAndRespond f sel s = answered r u :=
  ⟨_, _, BusAccesses.none.read hsel, rfl⟩

/-- INIT makes its request; every other command accesses the register it is routed to, or none, and then answers once. -/
theorem exec_accesses {i : Instr} {s t : State} (h : exec i s = .next t) :
    (i = .init ∧ t = privRequest s) ∨ (i ≠ .init ∧ ∃ u r, BusAccesses (Reaches i) s u ∧ t = answered r u) := by
  obtain ⟨hi, rfl⟩ | ⟨hi, -, rfl⟩ | ⟨hi, -, -, rfl⟩ | ⟨g, d, k, rfl, -, -, rfl⟩ | ⟨p, m, sel, f, hi, -, hr, rfl⟩ |
    ⟨p, b, sel, rfl, -, hr, rfl⟩ | ⟨p, sel, f, hi, -, hr, rfl⟩ := exec_cases h
  · exact .inl ⟨hi, rfl⟩
  · exact .inr ⟨hi, s, _, .none, rfl⟩
  · exact .inr ⟨hi, s, _, .none, rfl⟩
  · exact .inr ⟨by simp, busAccesses_readModifyWrite (R := Reaches (.setdir g d)) _ s rfl⟩
  · obtain ⟨rfl, -⟩ | ⟨rfl, -⟩ := hi
    · exact .inr ⟨by simp, busAccesses_readModifyWrite (R := Reaches (.pinon p m)) f s hr⟩
    · exact .inr ⟨by simp, busAccesses_readModifyWrite (R := Reaches (.pinoff p m)) f s hr⟩
  · exact .inr ⟨by simp, _, _, BusAccesses.none.write b hr, rfl⟩
  · obtain ⟨m, rfl, -⟩ | ⟨rfl, -⟩ := hi
    · exact .inr ⟨by simp, busAccesses_readAndRespond (R := Reaches (.readpin p m)) f s hr⟩
    · exact .inr ⟨by simp, busAccesses_readAndRespond (R := Reaches (.readport p)) f s hr⟩

/-- Bus accesses change the registers, the trace and the draw counter alone. -/
theorem BusAccesses.frame {R : Sel → Prop} {s u : State} (h : BusAccesses R s u) :
    ∃ x tr n, u = { s with x := x, trace := tr, draws := n } := by
  induction h with
  | none => exact ⟨s.x, s.trace, s.draws, rfl⟩
  | @read u sel _ _ ih =>
    obtain ⟨x, tr, n, rfl⟩ := ih
    obtain ⟨v, n', -, he⟩ := memRead_spec sel { s with x := x, trace := tr, draws := n }
    exact ⟨x, _, n', by rw [he]⟩
  | write v _ _ ih =>
    obtain ⟨x, tr, n, rfl⟩ := ih
    exact ⟨_, _, n, rfl⟩

@[simp] theorem memRead_x (sel : Sel) (s : State) : (memRead sel s).2.x = s.x := by
  obtain ⟨v, n, -, he⟩ := memRead_spec sel s
  rw [he]

/-- No access changes a register outside `R`. -/
theorem BusAccesses.get_of_not_mem {R : Sel → Prop} {s u : State} (h : BusAccesses R s u) {sel : Sel} (hn : ¬ R sel) :
    u.x.get sel = s.x.get sel := by
  induction h with
  | none => rfl
  | read _ _ ih => rwa [memRead_x]
  | @write u sel' v _ hsel ih =>
    have hne : sel ≠ sel' := fun he => hn (he ▸ hsel)
    rwa [memWrite_x, get_set_other _ _ hne]

/-- One more access, of a register in `R`. -/
theorem accesses_append {R : Sel → Prop} {es : List Event} {e : Event} {t : Sel} {w : Byte}
    (hes : ∀ sel v, (.busRead sel v ∈ es ∨ .busWrite sel v ∈ es) → R sel)
    (he : e = .busRead t w ∨ e = .busWrite t w) (ht : R t) :
    ∀ sel v, (.busRead sel v ∈ es ++ [e] ∨ .busWrite sel v ∈ es ++ [e]) → R sel := by
  intro sel v hv
  have hcase : (.busRead sel v ∈ es ∨ .busWrite sel v ∈ es) ∨ sel = t := by
    obtain rfl | rfl := he <;> simp at hv <;> tauto
  obtain hv | rfl := hcase
  · exact hes sel v hv
  · exact ht

/-- The events recorded are accesses of registers in `R`. -/
theorem BusAccesses.trace {R : Sel → Prop} {s u : State} (h : BusAccesses R s u) :
    ∃ es, u.trace = s.trace ++ es ∧ ∀ sel v, (.busRead sel v ∈ es ∨ .busWrite sel v ∈ es) → R sel := by
  induction h with
  | none => exact ⟨[], by simp, by simp⟩
  | @read u sel _ hsel ih =>
    obtain ⟨es, he, hR⟩ := ih
    obtain ⟨v, n, -, hm⟩ := memRead_spec sel u
    exact ⟨es ++ [.busRead sel v], by simp [hm, he], accesses_append hR (.inl rfl) hsel⟩
  | @write u sel v _ hsel ih =>
    obtain ⟨es, he, hR⟩ := ih
    exact ⟨es ++ [.busWrite sel v], by simp [he], accesses_append hR (.inr rfl) hsel⟩

/-- No access makes a written register `Unwritten`. -/
theorem BusAccesses.written {R : Sel → Prop} {s u : State} (h : BusAccesses R s u) {sel : Sel}
    (hx : ∃ v, s.x.get sel = .val v) : ∃ v, u.x.get sel = .val v := by
  induction h with
  | none => exact hx
  | read _ _ ih => rwa [memRead_x]
  | @write u sel' v _ _ ih =>
    by_cases hs : sel = sel'
    · exact ⟨v, by rw [hs, memWrite_x, get_set_same]⟩
    · rwa [memWrite_x, get_set_other _ _ hs]

/-- Settles O46: a command's accesses are of the registers it reaches, and INIT's answer makes its two writes or none. -/
theorem commandsReachOnlyTheirRegister : Obligations.CommandsReachOnlyTheirRegister := by
  refine ⟨fun i s t h => ?_, fun g s t hg h => ?_⟩
  · obtain ⟨-, rfl⟩ | ⟨-, u, r, hu, rfl⟩ := exec_accesses h
    · exact ⟨fun _ _ => rfl, [.privRequest], rfl, by simp⟩
    · exact ⟨fun _ => hu.get_of_not_mem, hu.trace⟩
  · rw [step_of_answers hg] at h
    cases h
    cases g with
    | deny => exact ⟨fun sel _ _ => congrArg (·.get sel) (takeTurn_x s), .inl (takeTurn_trace s)⟩
    | grant =>
      rw [initAnswer_grant]
      refine ⟨fun sel hb hd => ?_, .inr ⟨modeByte, dirInit, congrArg (· ++ _) (takeTurn_trace s)⟩⟩
      calc ((takeTurn s).2.x.set .base modeByte |>.set .dir dirInit).get sel
          = (takeTurn s).2.x.get sel := by rw [get_set_other _ _ hd, get_set_other _ _ hb]
        _ = s.x.get sel := by rw [takeTurn_x]

/-- Settles O47: the request of INIT, or the frame of the bus accesses and one response. -/
theorem commandsLeaveTheRestAlone : Obligations.CommandsLeaveTheRestAlone := by
  intro i s t h
  obtain ⟨hi, rfl⟩ | ⟨hi, u, r, hu, rfl⟩ := exec_accesses h
  · exact ⟨rfl, rfl, rfl, rfl, rfl, fun hn => absurd hi hn, fun _ => ⟨rfl, rfl, rfl, rfl, rfl⟩⟩
  · obtain ⟨x, tr, n, rfl⟩ := hu.frame
    exact ⟨rfl, rfl, rfl, rfl, rfl, fun _ => ⟨rfl, rfl, r, rfl, rfl⟩, fun h => absurd h hi⟩

/-! ## The response register (10_state.md R23) -/

/-- INIT's answer gives one response. -/
theorem initAnswer_responds (g : Answer) (s : State) :
    ∃ r, (initAnswer g s).rsp = some r ∧ (initAnswer g s).responses = s.responses ++ [r] := by
  cases g <;> exact ⟨_, rfl, rfl⟩

/-- Settles O17, by the cases of a step: a command, an illegal word and INIT's answer give one response, INIT's request
and every other step but a reset give none. -/
theorem responseRegisterHoldsTheLastResponse : Obligations.ResponseRegisterHoldsTheLastResponse := by
  refine ⟨fun s t h => ?_, fun s hm => step_of_moves hm, rfl⟩
  obtain ⟨_, ⟨sch, n, rfl⟩, -, hcase⟩ := step_cases h
  obtain ⟨_, rest, i, -, -, hexec⟩ | ⟨_, rest, -, -, rfl⟩ | ⟨hm, rfl⟩ | ⟨w, -, rfl⟩ | ⟨g, -, rfl⟩ | ⟨-, -, -, rfl⟩ := hcase
  · obtain ⟨-, -, -, -, -, hcmd, hinit⟩ := commandsLeaveTheRestAlone _ _ _ hexec
    by_cases hi : i = .init
    · obtain ⟨-, hrsp, hresp, -, -⟩ := hinit hi
      exact .inl ⟨hrsp, hresp⟩
    · obtain ⟨-, -, hr⟩ := hcmd hi
      exact .inr (.inl hr)
  · exact .inr (.inl ⟨_, rfl, rfl⟩)
  · exact .inr (.inr ⟨hm, rfl⟩)
  · exact .inl ⟨rfl, rfl⟩
  · exact .inr (.inl (initAnswer_responds g _))
  · exact .inl ⟨rfl, rfl⟩

/-! ## Reset (10_state.md R34) -/

theorem memRead_of_drawnRead {s : State} {sel : Sel} (h : DrawnRead s sel) :
    memRead sel s =
      (Config.draw s.draws,
        { s with trace := s.trace ++ [.busRead sel (Config.draw s.draws)], draws := s.draws + 1 }) :=
  memRead_eq (.inl ⟨h, rfl, rfl⟩)

/-- A drawn read leaves the next read of its register drawn, so two reads return two draws. -/
theorem memRead_twice_of_drawnRead {s : State} {sel : Sel} (h : DrawnRead s sel) :
    (memRead sel s).1 = Config.draw s.draws ∧
      (memRead sel (memRead sel s).2).1 = Config.draw (s.draws + 1) := by
  have hnext : DrawnRead (memRead sel s).2 sel := by
    rwa [memRead_of_drawnRead h]
  rw [memRead_of_drawnRead hnext, memRead_of_drawnRead h]
  exact ⟨rfl, rfl⟩

/-- Settles O2: the step is `hardReset`, after which every register is `Unwritten`, so every read is drawn. -/
theorem resetInAnyStateRestoresResetValues : Obligations.ResetInAnyStateRestoresResetValues := fun _ hm =>
  ⟨_, step_of_moves hm, rfl, rfl, rfl, get_unwritten, rfl,
    fun sel => memRead_twice_of_drawnRead (.inr (get_unwritten sel))⟩

/-- Settles O1: every register is `Unwritten`, so every read is drawn. -/
theorem resetLeavesTheSpecifiedState : Obligations.ResetLeavesTheSpecifiedState :=
  ⟨rfl, rfl, rfl, get_unwritten, rfl, fun sel => memRead_twice_of_drawnRead (.inr (get_unwritten sel))⟩

/-- No event, so no read to read back, and no write, so no register written. -/
theorem traceConsistent_of_reset {s : State} (hx : s.x = RegFile.unwritten) (ht : s.trace = []) : TraceConsistent s := by
  refine ⟨fun sel => ?_, fun before after sel v w htr => ?_⟩
  · rw [hx, ht, get_unwritten]
    rfl
  · rw [ht] at htr
    simp at htr

/-- Settles O3: at reset the mode is UNINIT, the phase IDLE, the registers `Unwritten`, the trace and the responses
empty. -/
theorem invariantsHoldAtReset : Obligations.InvariantsHoldAtReset :=
  ⟨fun hm => Mode.noConfusion hm, fun hm => Mode.noConfusion hm, traceConsistent_of_reset rfl rfl,
    ⟨fun _ hr => absurd hr List.not_mem_nil, rfl⟩,
    fun _ => ⟨get_unwritten, fun _ he => absurd he List.not_mem_nil⟩, fun hp => Phase.noConfusion hp⟩

/-! ## The mode (10_state.md R20) -/

/-- No command changes the mode. -/
theorem exec_mode {i : Instr} {s t : State} (h : exec i s = .next t) : t.mode = s.mode :=
  (commandsLeaveTheRestAlone i s t h).1

/-- A step keeps the mode, takes a GRANT and enters READY, or is a reset and enters UNINIT. -/
theorem step_mode_cases {s t : State} (h : step s = .next t) :
    t.mode = s.mode ∨ (Answers s .grant ∧ t.mode = .ready) ∨ (Moves s .reset ∧ t.mode = .uninit) := by
  obtain ⟨_, ⟨sch, n, rfl⟩, -, hcase⟩ := step_cases h
  obtain ⟨_, rest, i, -, -, hexec⟩ | ⟨_, rest, -, -, rfl⟩ | ⟨hm, rfl⟩ | ⟨w, -, rfl⟩ | ⟨g, hg, rfl⟩ | ⟨-, -, -, rfl⟩ := hcase
  · exact .inl ((exec_mode hexec).trans rfl)
  · exact .inl rfl
  · exact .inr (.inr ⟨hm, rfl⟩)
  · exact .inl rfl
  · cases g with
    | deny => exact .inl rfl
    | grant => exact .inr (.inl ⟨hg, rfl⟩)
  · exact .inl rfl

/-- In UNINIT every command but INIT is answered NOT_READY (30_encoding.md R69). -/
theorem exec_of_uninit {i : Instr} {s : State} (hi : i ≠ .init) (hm : s.mode = .uninit) :
    exec i s = .next (raiseStatus .notReady s) := by
  cases i with
  | init => exact absurd rfl hi
  | setdir | pinon | pinoff | writepins | readpin | readport =>
    exact congrArg Host.Outcome.next (whenReady_uninit _ hm)

theorem exec_total (i : Instr) (s : State) : ∃ t, exec i s = .next t := by
  cases i <;> exact ⟨_, rfl⟩

/-- In READY every command on a port valid for it answers OK. -/
theorem exec_ok_of_ready {i : Instr} {s t : State} (hi : i ≠ .init) (hm : s.mode = .ready) (hp : i.portValid = true)
    (h : exec i s = .next t) : ∃ d, t.rsp = some (responseWord .ok d) := by
  obtain ⟨hinit, -⟩ | ⟨-, hu, -⟩ | ⟨-, -, hv, -⟩ | ⟨g, d, k, -, -, -, rfl⟩ | ⟨p, m, sel, f, -, -, -, rfl⟩ |
    ⟨p, b, sel, -, -, -, rfl⟩ | ⟨p, sel, f, -, -, -, rfl⟩ := exec_cases h
  · exact absurd hinit hi
  · rw [hm] at hu
    cases hu
  · rw [hp] at hv
    cases hv
  · exact ⟨0x00#8, rfl⟩
  · exact ⟨0x00#8, rfl⟩
  · exact ⟨0x00#8, rfl⟩
  · exact ⟨_, rfl⟩

/-- Settles O16: the mode by the cases of a step, the responses by the cases of a command. -/
theorem modeChangesOnlyByGrantOrReset : Obligations.ModeChangesOnlyByGrantOrReset := by
  refine ⟨fun s t h => ⟨fun hs ht => ?_, fun hs ht => ?_, fun hg => ?_, fun hm => ?_⟩,
    fun i s hi => ⟨exec_of_uninit hi, fun hm hp => ?_⟩⟩
  · obtain he | ⟨hg, -⟩ | ⟨-, hu⟩ := step_mode_cases h
    · simp [he, hs] at ht
    · exact hg
    · simp [hu] at ht
  · obtain he | ⟨-, hr⟩ | ⟨hm, -⟩ := step_mode_cases h
    · simp [he, hs] at ht
    · simp [hr] at ht
    · exact hm
  · rw [step_of_answers hg] at h
    cases h
    rfl
  · rw [step_of_moves hm] at h
    cases h
    rfl
  · obtain ⟨t, ht⟩ := exec_total i s
    obtain ⟨d, hd⟩ := exec_ok_of_ready hi hm hp ht
    obtain ⟨-, hstatus, -⟩ := responseWord_fields .ok d
    exact ⟨t, _, ht, hd, hstatus⟩

/-! ## The registers in READY (10_state.md R30, R35) -/

theorem initAnswer_grant_get_base (s : State) : (initAnswer .grant s).x.get .base = .val modeByte := rfl

theorem initAnswer_grant_get_dir (s : State) : (initAnswer .grant s).x.get .dir = .val dirInit := rfl

/-- No command makes a written register `Unwritten`. -/
theorem exec_written {i : Instr} {s t : State} (h : exec i s = .next t) {sel : Sel} (hx : ∃ v, s.x.get sel = .val v) :
    ∃ v, t.x.get sel = .val v := by
  obtain ⟨-, rfl⟩ | ⟨-, u, r, hu, rfl⟩ := exec_accesses h
  · exact hx
  · exact hu.written hx

/-- Neither does INIT's answer. -/
theorem initAnswer_written (g : Answer) {s : State} {sel : Sel} (hx : ∃ v, s.x.get sel = .val v) :
    ∃ v, (initAnswer g s).x.get sel = .val v := by
  cases g with
  | deny => exact hx
  | grant =>
    have hu : BusAccesses (fun _ => True) s (memWrite .dir dirInit (memWrite .base modeByte s)) :=
      (BusAccesses.none.write _ trivial).write _ trivial
    exact hu.written hx

/-- A property of the mode, the registers, the trace and the read source holds after a step when it holds before it, and
commands, INIT's answer and the reset, if one comes, keep it: nothing else touches what it speaks of. -/
theorem step_keeps {P : State → Prop} {s t : State} (h : step s = .next t)
    (hframe : ∀ u : State, u.mode = s.mode → u.x = s.x → u.trace = s.trace → u.readSource = s.readSource → P u)
    (hexec : ∀ i u t, exec i u = .next t → P u → P t) (hanswer : ∀ g u, P u → P (initAnswer g u))
    (hreset : Moves s .reset → ∀ u, P (hardReset u)) : P t := by
  obtain ⟨_, ⟨sch, n, rfl⟩, -, hcase⟩ := step_cases h
  obtain ⟨_, rest, i, -, -, he⟩ | ⟨_, rest, -, -, rfl⟩ | ⟨hm, rfl⟩ | ⟨w, -, rfl⟩ | ⟨g, -, rfl⟩ | ⟨-, -, -, rfl⟩ := hcase
  · exact hexec i _ t he (hframe _ rfl rfl rfl rfl)
  · exact hframe _ rfl rfl rfl rfl
  · exact hreset hm _
  · exact hframe _ rfl rfl rfl rfl
  · exact hanswer g _ (hframe _ rfl rfl rfl rfl)
  · exact hframe _ rfl rfl rfl rfl

/-- Nothing but a reset makes a written register `Unwritten`. -/
theorem step_written {s t : State} (h : step s = .next t) (hr : ¬ Moves s .reset) {sel : Sel}
    (hx : ∃ v, s.x.get sel = .val v) : ∃ v, t.x.get sel = .val v :=
  step_keeps (P := fun u => ∃ v, u.x.get sel = .val v) h (fun u _ hu _ _ => by rwa [hu])
    (fun _ _ _ he hx => exec_written he hx) (fun g _ hx => initAnswer_written g hx) (fun hm => absurd hm hr)

/-- A step that ends in READY takes a GRANT, or starts in READY and is no reset. -/
theorem step_to_ready {s t : State} (h : step s = .next t) (ht : t.mode = .ready) :
    (∃ u, t = initAnswer .grant u) ∨ (s.mode = .ready ∧ ¬ Moves s .reset) := by
  obtain ⟨hmode, -⟩ := modeChangesOnlyByGrantOrReset
  obtain ⟨hgrant, -, -, hreset⟩ := hmode s t h
  cases hs : s.mode with
  | uninit =>
    have hg := step_of_answers (hgrant hs ht)
    rw [h] at hg
    injection hg with hg
    exact .inl ⟨_, hg⟩
  | ready =>
    refine .inr ⟨rfl, fun hm => ?_⟩
    simp [hreset hm] at ht

theorem drawnRead_dir_iff {s : State} : DrawnRead s .dir ↔ s.x.get .dir = .unwritten := by
  simp [DrawnRead]

/-- Settles O20: a GRANT writes both registers, and only a reset, which leaves READY, makes a register `Unwritten`. -/
theorem readyRegistersStayWritten : Obligations.ReadyRegistersStayWritten := by
  refine ⟨fun s t hs h ht => ?_, fun s t sel v hx h hr => step_written h hr ⟨v, hx⟩, fun s hs hm hd => ?_⟩
  · obtain ⟨u, rfl⟩ | ⟨hm, hr⟩ := step_to_ready h ht
    · exact ⟨⟨_, initAnswer_grant_get_base u⟩, _, initAnswer_grant_get_dir u⟩
    · obtain ⟨hbase, hdir⟩ := hs hm
      exact ⟨step_written h hr hbase, step_written h hr hdir⟩
  · obtain ⟨-, v, hv⟩ := hs hm
    rw [drawnRead_dir_iff, hv] at hd
    cases hd

/-! ### The direction register's unassigned bits (R35) -/

/-- No group's bit is among 7, 6, 5 and 2. -/
theorem bitMask_and_unassigned {g : Port} {k : Nat} (h : GroupBit g k) : bitMask k &&& 0xE4#8 = 0x00#8 := by
  obtain ⟨-, rfl⟩ | ⟨-, rfl⟩ | ⟨-, rfl⟩ | ⟨-, rfl⟩ := h <;> decide

/-- So a group's bit may be set or cleared and they stay 0. -/
theorem setDirBit_and_unassigned {g : Port} {k : Nat} (h : GroupBit g k) (d : Direction) {v : Byte}
    (hv : v &&& 0xE4#8 = 0x00#8) : setDirBit k d v &&& 0xE4#8 = 0x00#8 := by
  cases d with
  | input =>
    calc (v ||| bitMask k) &&& 0xE4#8
        = (v &&& 0xE4#8) ||| (bitMask k &&& 0xE4#8) := BitVec.and_or_distrib_right
      _ = 0x00#8 := by rw [hv, bitMask_and_unassigned h, BitVec.or_zero]
  | output =>
    calc (v &&& ~~~bitMask k) &&& 0xE4#8
        = (v &&& 0xE4#8) &&& ~~~bitMask k := by
          rw [BitVec.and_assoc, BitVec.and_comm (~~~bitMask k), ← BitVec.and_assoc]
      _ = 0x00#8 := by rw [hv, BitVec.zero_and]

/-- A read that reads back (20_memory.md R44) returns the byte stored. -/
theorem ReadOutcome.eq_of_readsBack {s : State} {sel : Sel} {v w : Byte} {n : Nat} (h : ReadOutcome s sel v n)
    (hb : s.readSource = .store ∨ sel = .base ∨ sel = .dir) (hx : s.x.get sel = .val w) : v = w := by
  obtain ⟨⟨hsel, hext⟩ | hu, -, -⟩ | ⟨-, hv, -⟩ := h
  · rw [hext] at hb
    obtain hst | rfl | rfl := hb
    · cases hst
    · simp at hsel
    · simp at hsel
  · rw [hx] at hu
    cases hu
  · rw [hv] at hx
    injection hx

/-- No port of a data command is routed to the direction register (10_state.md R29). -/
theorem Routes.ne_dir {p : Port} {sel : Sel} (h : Routes p sel) : .dir ≠ sel := by
  obtain ⟨-, rfl⟩ | ⟨-, rfl⟩ | ⟨-, rfl⟩ := h <;> simp

/-- Of the commands only SETDIR changes the direction register, and it sets or clears the bit of a group. -/
theorem exec_dir {i : Instr} {s t : State} (h : exec i s = .next t) :
    t.x.get .dir = s.x.get .dir ∨
      ∃ g k d v n, GroupBit g k ∧ ReadOutcome s .dir v n ∧ t.x.get .dir = .val (setDirBit k d v) := by
  obtain ⟨-, rfl⟩ | ⟨-, -, rfl⟩ | ⟨-, -, -, rfl⟩ | ⟨g, d, k, -, -, hk, rfl⟩ | ⟨p, m, sel, f, -, -, hr, rfl⟩ |
    ⟨p, b, sel, -, -, hr, rfl⟩ | ⟨p, sel, f, -, -, -, rfl⟩ := exec_cases h
  · exact .inl rfl
  · exact .inl rfl
  · exact .inl rfl
  · obtain ⟨v, n, hv, -⟩ := memRead_spec .dir s
    exact .inr ⟨g, k, d, v, n, hk, hv, by rw [readModifyWrite_eq _ hv]; rfl⟩
  · obtain ⟨v, n, hv, -⟩ := memRead_spec sel s
    exact .inl (by rw [readModifyWrite_eq _ hv]; exact get_set_other s.x _ hr.ne_dir)
  · exact .inl (get_set_other s.x _ hr.ne_dir)
  · obtain ⟨v, n, hv, -⟩ := memRead_spec sel s
    exact .inl (by rw [readAndRespond_eq _ hv]; rfl)

/-- The direction register is written, and its unassigned bits are 0: what `UnassignedDirBitsZero` says in READY. -/
def UnassignedBitsClear (s : State) : Prop := ∃ v, s.x.get .dir = .val v ∧ v &&& 0xE4#8 = 0x00#8

theorem unassignedDirBitsZero_iff {s : State} : UnassignedDirBitsZero s ↔ (s.mode = .ready → UnassignedBitsClear s) :=
  Iff.rfl

theorem exec_unassignedBitsClear {i : Instr} {s t : State} (h : exec i s = .next t) (hs : UnassignedBitsClear s) :
    UnassignedBitsClear t := by
  obtain ⟨w, hx, hw⟩ := hs
  obtain he | ⟨g, k, d, v, n, hk, hv, ht⟩ := exec_dir h
  · exact ⟨w, he.trans hx, hw⟩
  · obtain rfl := hv.eq_of_readsBack (.inr (.inr rfl)) hx
    exact ⟨_, ht, setDirBit_and_unassigned hk d hw⟩

theorem initAnswer_grant_unassignedBitsClear (s : State) : UnassignedBitsClear (initAnswer .grant s) :=
  ⟨dirInit, initAnswer_grant_get_dir s, by decide⟩

theorem initAnswer_unassignedBitsClear (g : Answer) {s : State} (hs : UnassignedBitsClear s) :
    UnassignedBitsClear (initAnswer g s) := by
  cases g with
  | deny => exact hs
  | grant => exact initAnswer_grant_unassignedBitsClear s

/-- Settles O21: READY is entered with `dirInit`, and in READY only a command or INIT's answer writes the register. -/
theorem unassignedDirectionBitsStayZero : Obligations.UnassignedDirectionBitsStayZero := by
  intro s t hs h
  rw [unassignedDirBitsZero_iff] at hs ⊢
  intro ht
  obtain ⟨u, rfl⟩ | ⟨hm, hr⟩ := step_to_ready h ht
  · exact initAnswer_grant_unassignedBitsClear u
  · obtain ⟨v, hx, hv⟩ := hs hm
    exact step_keeps h (fun u _ hu _ _ => ⟨v, by rwa [hu], hv⟩) (fun _ _ _ => exec_unassignedBitsClear)
      (fun g _ => initAnswer_unassignedBitsClear g) (fun hm => absurd hm hr)

/-! ## The trace and the registers (20_memory.md R49) -/

/-- A trace stays one whose reads read back when an event is recorded that is no such read, or one that does. -/
theorem readsBack_append {src : ReadSource} {tr : List Event} {e : Event} (h : ReadsBack src tr)
    (he : ∀ sel v w, e = .busRead sel v → (src = .store ∨ sel = .base ∨ sel = .dir) → lastWrite sel tr = .val w → v = w) :
    ReadsBack src (tr ++ [e]) := by
  intro before after sel v w htr
  obtain rfl | ⟨after', e', rfl⟩ := List.eq_nil_or_concat' after
  · obtain ⟨rfl, rfl⟩ : tr = before ∧ e = .busRead sel v := by simpa using htr
    exact he sel v w rfl
  · rw [← List.cons_append, ← List.append_assoc] at htr
    obtain ⟨rfl, -⟩ := List.append_inj' htr rfl
    exact h before after' sel v w rfl

theorem TraceConsistent.privRequest {s : State} (h : TraceConsistent s) : TraceConsistent (privRequest s) := by
  obtain ⟨hx, hb⟩ := h
  exact ⟨fun sel => (hx sel).trans (lastWrite_append sel s.trace .privRequest).symm, readsBack_append hb (by simp)⟩

theorem TraceConsistent.memWrite {s : State} (h : TraceConsistent s) (sel : Sel) (v : Byte) :
    TraceConsistent (memWrite sel v s) := by
  obtain ⟨hx, hb⟩ := h
  refine ⟨fun t => ?_, readsBack_append hb (by simp)⟩
  rw [memWrite_trace, lastWrite_append, memWrite_x]
  by_cases ht : sel = t
  · simp [ht]
  · simp [ht, get_set_other _ _ (Ne.symm ht), hx t]

/-- A read's byte is the register's, which is what the last write left. -/
theorem TraceConsistent.memRead {s : State} (h : TraceConsistent s) (sel : Sel) : TraceConsistent (memRead sel s).2 := by
  obtain ⟨hx, hb⟩ := h
  obtain ⟨v, n, hv, he⟩ := memRead_spec sel s
  rw [he]
  refine ⟨fun t => (hx t).trans (lastWrite_append t s.trace (.busRead sel v)).symm,
    readsBack_append hb fun sel' v' w hr hsrc hw => ?_⟩
  cases hr
  exact hv.eq_of_readsBack hsrc ((hx sel).trans hw)

theorem BusAccesses.traceConsistent {R : Sel → Prop} {s u : State} (h : BusAccesses R s u) (hs : TraceConsistent s) :
    TraceConsistent u := by
  induction h with
  | none => exact hs
  | read _ _ ih => exact ih.memRead _
  | write v _ _ ih => exact ih.memWrite _ v

theorem exec_traceConsistent {i : Instr} {s t : State} (h : exec i s = .next t) (hs : TraceConsistent s) :
    TraceConsistent t := by
  obtain ⟨-, rfl⟩ | ⟨-, u, r, hu, rfl⟩ := exec_accesses h
  · exact hs.privRequest
  · exact hu.traceConsistent hs

theorem initAnswer_traceConsistent (g : Answer) {s : State} (hs : TraceConsistent s) :
    TraceConsistent (initAnswer g s) := by
  cases g with
  | deny => exact hs
  | grant => exact (hs.memWrite .base modeByte).memWrite .dir dirInit

/-- Agreement speaks of the registers, the trace and the read source alone. -/
theorem TraceConsistent.congr {s u : State} (h : TraceConsistent s) (hx : u.x = s.x) (htr : u.trace = s.trace)
    (hsrc : u.readSource = s.readSource) : TraceConsistent u := by
  rwa [TraceConsistent, RegistersMatchTrace, hx, htr, hsrc]

/-- Settles O22: a command and INIT's answer reach the registers over the bus, each access of which keeps the agreement, and
a reset clears both sides. -/
theorem traceStaysConsistent : Obligations.TraceStaysConsistent := fun _ _ hs h =>
  step_keeps h (fun _ _ hx htr hsrc => hs.congr hx htr hsrc) (fun _ _ _ => exec_traceConsistent)
    (fun g _ => initAnswer_traceConsistent g) (fun _ _ => traceConsistent_of_reset rfl rfl)

end Sys2Proof.Machine

/-! ## One access of the register bus (20_memory.md R44, R45, R46) -/

namespace Sys2Proof.Machine

/-- A written register reads back under `Store`, and the base-mode and direction registers always do. -/
theorem not_drawnRead_of_val {s : State} {sel : Sel} {w : Byte} (hb : sel = .base ∨ sel = .dir ∨ s.readSource = .store)
    (hx : s.x.get sel = .val w) : ¬ DrawnRead s sel := by
  rintro (⟨hdata, hext⟩ | hu)
  · obtain rfl | rfl | hst := hb
    · simp at hdata
    · simp at hdata
    · simp [hext] at hst
  · simp [hx] at hu

theorem memRead_of_val {s : State} {sel : Sel} {w : Byte} (hb : sel = .base ∨ sel = .dir ∨ s.readSource = .store)
    (hx : s.x.get sel = .val w) : memRead sel s = (w, { s with trace := s.trace ++ [.busRead sel w] }) :=
  memRead_eq (.inr ⟨not_drawnRead_of_val hb hx, hx, rfl⟩)

/-- Settles O4: the two kinds of read, drawn and reading back. -/
theorem registerReadReturnsStoredByteOrDraw : Obligations.RegisterReadReturnsStoredByteOrDraw :=
  fun _ _ => ⟨memRead_of_drawnRead, fun _ => memRead_of_val⟩

/-- Settles O5: a read keeps the register and the read source, so a read that follows it is of the same kind. -/
theorem registerReadHasNoSideEffect : Obligations.RegisterReadHasNoSideEffect := by
  intro s sel
  refine ⟨?_, fun w hst hx => ?_, memRead_twice_of_drawnRead⟩
  · obtain ⟨v, n, -, he⟩ := memRead_spec sel s
    exact ⟨v, n, he⟩
  · have hst' : (memRead sel s).2.readSource = .store := (memRead_readSource sel s).trans hst
    have hx' : (memRead sel s).2.x.get sel = .val w := by rwa [memRead_x]
    exact ⟨congrArg Prod.fst (memRead_of_val (.inr (.inr hst)) hx),
      congrArg Prod.fst (memRead_of_val (.inr (.inr hst')) hx')⟩

/-- Settles O6, by the register file's read-after-write. -/
theorem registerWriteTakesEffectAtOnce : Obligations.RegisterWriteTakesEffectAtOnce :=
  fun s sel v => ⟨get_set_same s.x sel v, fun _ hu => get_set_other s.x v hu, rfl, rfl⟩

/-! ## The draws of a run (20_memory.md R44) -/

/-- From `s` to `t` at most one register read is made, before any other access, and the draw counter moves only as that
read moves it. -/
def ReadsAtMostOnce (s t : State) : Prop :=
  (t.draws = s.draws ∧ ∃ es, t.trace = s.trace ++ es ∧ ∀ u w, .busRead u w ∉ es) ∨
    ∃ sel v es, ReadOutcome s sel v t.draws ∧ t.trace = s.trace ++ .busRead sel v :: es ∧ ∀ u w, .busRead u w ∉ es

theorem ReadsAtMostOnce.refl (s : State) : ReadsAtMostOnce s s := .inl ⟨rfl, [], by simp, by simp⟩

theorem readModifyWrite_readsAtMostOnce (f : Byte → Byte) (sel : Sel) (s : State) :
    ReadsAtMostOnce s (readModifyWrite f sel s) := by
  obtain ⟨v, n, hv, -⟩ := memRead_spec sel s
  rw [readModifyWrite_eq f hv]
  exact .inr ⟨sel, v, [.busWrite sel (f v)], hv, rfl, by simp⟩

theorem readAndRespond_readsAtMostOnce (f : Byte → Byte) (sel : Sel) (s : State) :
    ReadsAtMostOnce s (readAndRespond f sel s) := by
  obtain ⟨v, n, hv, -⟩ := memRead_spec sel s
  rw [readAndRespond_eq f hv]
  exact .inr ⟨sel, v, [], hv, rfl, by simp⟩

theorem exec_readsAtMostOnce {i : Instr} {s t : State} (h : exec i s = .next t) : ReadsAtMostOnce s t := by
  obtain ⟨-, rfl⟩ | ⟨-, -, rfl⟩ | ⟨-, -, -, rfl⟩ | ⟨g, d, k, -, -, -, rfl⟩ | ⟨p, m, sel, f, -, -, -, rfl⟩ |
    ⟨p, b, sel, -, -, -, rfl⟩ | ⟨p, sel, f, -, -, -, rfl⟩ := exec_cases h
  · exact .inl ⟨rfl, [.privRequest], rfl, by simp⟩
  · exact .refl s
  · exact .refl s
  · exact readModifyWrite_readsAtMostOnce _ _ s
  · exact readModifyWrite_readsAtMostOnce _ _ s
  · exact .inl ⟨rfl, [.busWrite sel b], rfl, by simp⟩
  · exact readAndRespond_readsAtMostOnce _ _ s

theorem initAnswer_readsAtMostOnce (g : Answer) (s : State) : ReadsAtMostOnce s (initAnswer g s) := by
  cases g with
  | deny => exact .refl s
  | grant =>
    rw [initAnswer_grant]
    exact .inl ⟨rfl, [.busWrite .base modeByte, .busWrite .dir dirInit], rfl, by simp⟩

/-- A step reads at most once, or is a reset, which keeps the draw counter. -/
theorem step_readsAtMostOnce {s t : State} (h : step s = .next t) :
    ReadsAtMostOnce s t ∨ (t.trace = [] ∧ t.draws = s.draws) := by
  obtain ⟨_, ⟨sch, n, rfl⟩, -, hcase⟩ := step_cases h
  obtain ⟨_, rest, i, -, -, hexec⟩ | ⟨_, rest, -, -, rfl⟩ | ⟨-, rfl⟩ | ⟨w, -, rfl⟩ | ⟨g, -, rfl⟩ | ⟨-, -, -, rfl⟩ := hcase
  · have hreads := exec_readsAtMostOnce hexec
    exact .inl hreads
  · exact .inl (.refl s)
  · exact .inr ⟨rfl, rfl⟩
  · exact .inl (.refl s)
  · exact .inl (initAnswer_readsAtMostOnce g { s with schedule := sch, turns := n })
  · exact .inl (.refl s)

/-- A read event between two others is the one read of a list that reads at most at its head. -/
theorem read_eq_head {before after es : List Event} {sel sel' : Sel} {v v' : Byte}
    (h : before ++ .busRead sel v :: after = .busRead sel' v' :: es) (hes : ∀ u w, .busRead u w ∉ es) :
    before = [] ∧ sel = sel' ∧ v = v' ∧ after = es := by
  cases before with
  | nil => simpa [and_assoc] using h
  | cons e before' =>
    obtain ⟨-, rfl⟩ := List.cons.inj h
    exact absurd (by simp) (hes sel v)

/-- A step that records a read makes no other, and its byte and draw counter are what the read gives in `s`. -/
theorem step_read {s t : State} {before after : List Event} {sel : Sel} {v : Byte} (h : step s = .next t)
    (htr : t.trace = s.trace ++ (before ++ .busRead sel v :: after)) :
    ReadOutcome s sel v t.draws ∧ ∀ u w, .busRead u w ∉ before ++ after := by
  obtain (⟨-, es, he, hes⟩ | ⟨sel', v', es, hv, he, hes⟩) | ⟨he, -⟩ := step_readsAtMostOnce h
  · obtain rfl := List.append_cancel_left (htr.symm.trans he)
    exact absurd (by simp) (hes sel v)
  · obtain ⟨rfl, rfl, rfl, rfl⟩ := read_eq_head (List.append_cancel_left (htr.symm.trans he)) hes
    exact ⟨hv, hes⟩
  · simp [he] at htr

/-- A step whose reads are not drawn keeps the draw counter. -/
theorem step_draws_of_no_drawnRead {s t : State} {es : List Event} (h : step s = .next t)
    (htr : t.trace = s.trace ++ es) (hes : ∀ sel v, .busRead sel v ∈ es → ¬ DrawnRead s sel) : t.draws = s.draws := by
  obtain (⟨hd, -⟩ | ⟨sel, v, es', hv, he, -⟩) | ⟨-, hd⟩ := step_readsAtMostOnce h
  · exact hd
  · obtain rfl := List.append_cancel_left (htr.symm.trans he)
    obtain ⟨hdrawn, -⟩ | ⟨-, -, hd⟩ := hv
    · exact absurd hdrawn (hes sel v (by simp))
    · exact hd
  · exact hd

theorem ReadOutcome.le_draws {s : State} {sel : Sel} {v : Byte} {n : Nat} (h : ReadOutcome s sel v n) : s.draws ≤ n := by
  obtain ⟨-, -, rfl⟩ | ⟨-, -, rfl⟩ := h
  · exact Nat.le_succ s.draws
  · exact Nat.le_refl s.draws

theorem step_draws_le {s t : State} (h : step s = .next t) : s.draws ≤ t.draws := by
  obtain (⟨hd, -⟩ | ⟨sel, v, es, hv, -⟩) | ⟨-, hd⟩ := step_readsAtMostOnce h
  · exact hd.ge
  · exact hv.le_draws
  · exact hd.ge

/-- A run of `n + 1` steps is a step and a run of `n`. -/
theorem run_succ_cases {M : Host.Core} {n : Nat} {s t : M.State} (h : M.run (n + 1) s = .next t) :
    ∃ u, M.step s = .next u ∧ M.run n u = .next t := by
  unfold Host.Core.run at h
  split at h
  next u hu => exact ⟨u, hu, h⟩
  next => cases h
  next => cases h

theorem run_draws_le {n : Nat} {s t : State} (h : Sys2Proof.core.run n s = .next t) : s.draws ≤ t.draws := by
  induction n generalizing s with
  | zero =>
    cases h
    exact Nat.le_refl _
  | succ n ih =>
    obtain ⟨u, hu, hrun⟩ := run_succ_cases h
    exact (step_draws_le hu).trans (ih hrun)

/-- Settles O51: a step's one read, if drawn, raises the counter, and no step of a run lowers it. -/
theorem drawsAreNeverGivenTwice : Obligations.DrawsAreNeverGivenTwice := by
  refine ⟨fun s t before after sel v h htr hdrawn => ?_, fun s t es h htr hes => step_draws_of_no_drawnRead h htr hes,
    fun n s t h => run_draws_le h, fun s sel hdrawn => ?_⟩
  · obtain ⟨⟨-, hv, hd⟩ | ⟨hnot, -⟩, honly⟩ := step_read h htr
    · have hlt : s.draws < t.draws := hd ▸ Nat.lt_succ_self s.draws
      exact ⟨hv, hd, honly, fun n u hrun => hlt.trans_le (run_draws_le hrun)⟩
    · exact absurd hdrawn hnot
  · rw [memRead_of_drawnRead hdrawn]
    exact ⟨rfl, rfl⟩

end Sys2Proof.Machine

/-! ## Encoding and decoding (30_encoding.md) -/

namespace Sys2Proof

/-! A word of each row of the opcode map (R72), decoded. -/

@[simp] theorem decode_initWord (p : BitVec 3) (a : Byte) : decode (commandWord 0#3 p 0#2 a) = .instr .init :=
  decode_commandWord 0#3 p a (by decide)

@[simp] theorem decode_setdirWord (p : BitVec 3) (a : Byte) :
    decode (commandWord 1#3 p 0#2 a) = .instr (.setdir (portOfCode p) (directionOfBit (a.getLsbD 0))) :=
  decode_commandWord 1#3 p a (by decide)

@[simp] theorem decode_pinonWord (p : BitVec 3) (a : Byte) :
    decode (commandWord 2#3 p 0#2 a) = .instr (.pinon (portOfCode p) a) :=
  decode_commandWord 2#3 p a (by decide)

@[simp] theorem decode_pinoffWord (p : BitVec 3) (a : Byte) :
    decode (commandWord 3#3 p 0#2 a) = .instr (.pinoff (portOfCode p) a) :=
  decode_commandWord 3#3 p a (by decide)

@[simp] theorem decode_writepinsWord (p : BitVec 3) (a : Byte) :
    decode (commandWord 4#3 p 0#2 a) = .instr (.writepins (portOfCode p) a) :=
  decode_commandWord 4#3 p a (by decide)

@[simp] theorem decode_readpinWord (p : BitVec 3) (a : Byte) :
    decode (commandWord 5#3 p 0#2 a) = .instr (.readpin (portOfCode p) a) :=
  decode_commandWord 5#3 p a (by decide)

@[simp] theorem decode_readportWord (p : BitVec 3) (a : Byte) :
    decode (commandWord 6#3 p 0#2 a) = .instr (.readport (portOfCode p)) :=
  decode_commandWord 6#3 p a (by decide)

@[simp] theorem directionOfBit_arg (d : Direction) : directionOfBit (d.arg.getLsbD 0) = d := by
  cases d <;> rfl

/-- Settles O8: each command's word lies in its row, and its port and direction are read back from their codes. -/
theorem decodeOfEncodeIsIdentity : Obligations.DecodeOfEncodeIsIdentity := by
  intro i _
  cases i with
  | init => exact decode_initWord _ _
  | setdir g d => rw [encode, decode_setdirWord, portOfCode_code, directionOfBit_arg]
  | pinon p m => rw [encode, decode_pinonWord, portOfCode_code]
  | pinoff p m => rw [encode, decode_pinoffWord, portOfCode_code]
  | writepins p b => rw [encode, decode_writepinsWord, portOfCode_code]
  | readpin p m => rw [encode, decode_readpinWord, portOfCode_code]
  | readport p => rw [encode, decode_readportWord, portOfCode_code]

/-- Settles O7, by evaluating the decoder. -/
theorem specWordsDecode : Obligations.SpecWordsDecode := by
  unfold Obligations.SpecWordsDecode
  decide

/-- Settles O10: each word is the `commandWord` of its row with the fields given, and the port's number is its code. -/
theorem operandsAreTakenFromTheirFields : Obligations.OperandsAreTakenFromTheirFields := by
  intro n p arg h
  have hp : portOfCode (BitVec.ofNat 3 n) = p := by
    simp only [List.mem_cons, Prod.mk.injEq, List.not_mem_nil, or_false] at h
    obtain ⟨rfl, rfl⟩ | ⟨rfl, rfl⟩ | ⟨rfl, rfl⟩ | ⟨rfl, rfl⟩ | ⟨rfl, rfl⟩ | ⟨rfl, rfl⟩ | ⟨rfl, rfl⟩ | ⟨rfl, rfl⟩ := h <;>
      rfl
  subst hp
  exact ⟨decode_initWord _ _, decode_setdirWord _ _, decode_pinonWord _ _, decode_pinoffWord _ _,
    decode_writepinsWord _ _, decode_readpinWord _ _, decode_readportWord _ _⟩

/-- A word in the row of `op` is the row's word with its own PORT and ARG. -/
theorem eq_commandWord_of_row {op : BitVec 3} {w : Word} (h : w &&& 0xE300#16 = commandWord op 0#3 0#2 0#8) :
    w = commandWord op (fieldPort w) 0#2 (fieldArg w) := by
  have hfields : commandWord (fieldOp w) 0#3 (fieldRsv w) 0#8 = commandWord op 0#3 0#2 0#8 := by
    rw [← commandWord_under_mask _ (fieldPort w) _ (fieldArg w), commandWord_fields, h]
  have hop : fieldOp w = op := by simpa using congrArg fieldOp hfields
  have hrsv : fieldRsv w = 0#2 := by simpa using congrArg fieldRsv hfields
  rw [← hop, ← hrsv, commandWord_fields]

/-- A word in the row of `op` decodes as the row's words do. -/
theorem decode_of_row {op : BitVec 3} {w : Word} {i : BitVec 3 → Byte → Instr}
    (hi : ∀ p a, decode (commandWord op p 0#2 a) = .instr (i p a))
    (h : w &&& 0xE300#16 = commandWord op 0#3 0#2 0#8) : decode w = .instr (i (fieldPort w) (fieldArg w)) :=
  (congrArg decode (eq_commandWord_of_row h)).trans (hi _ _)

/-- A word that decodes to a command has a legal OP and RSV 0. -/
theorem eq_commandWord_of_decode {w : Word} {i : Instr} (h : decode w = .instr i) :
    fieldOp w ≠ 7#3 ∧ w = commandWord (fieldOp w) (fieldPort w) 0#2 (fieldArg w) := by
  have hlegal : ¬ (fieldOp w = 7#3 ∨ fieldRsv w ≠ 0#2) := by
    rw [← decode_rejects_iff, h]
    simp
  obtain ⟨hop, hrsv⟩ := not_or.1 hlegal
  refine ⟨hop, ?_⟩
  rw [← not_not.1 hrsv, commandWord_fields]

/-- A word that decodes to a command lies in the command's row. -/
theorem row_of_decode {w : Word} {i : Instr} (h : decode w = .instr i) : w &&& 0xE300#16 = Laws.OpcodeRow.matchOf i := by
  obtain ⟨hop, hw⟩ := eq_commandWord_of_decode h
  rw [hw] at h ⊢
  rw [commandWord_under_mask]
  have hcases : ∀ op : BitVec 3, op ≠ 7#3 →
      op = 0#3 ∨ op = 1#3 ∨ op = 2#3 ∨ op = 3#3 ∨ op = 4#3 ∨ op = 5#3 ∨ op = 6#3 := by
    decide
  obtain hop | hop | hop | hop | hop | hop | hop := hcases _ hop <;>
  · simp [hop] at h
    rw [hop, ← h]
    rfl

/-- `matchOf` takes the seven `match` values of R72 alone. -/
theorem matchOf_mem (i : Instr) :
    Laws.OpcodeRow.matchOf i ∈
      [0x0000#16, 0x2000#16, 0x4000#16, 0x6000#16, 0x8000#16, 0xA000#16, 0xC000#16] := by
  cases i <;> simp [Laws.OpcodeRow.matchOf]

/-- Settles O9: a row's words decode to its command, a decoded word lies in its command's row, and so a word outside every
row decodes to no command. -/
theorem opcodeMapRowsDecideTheCommand : Obligations.OpcodeMapRowsDecideTheCommand := by
  refine ⟨fun w => ⟨⟨decode_of_row decode_initWord, row_of_decode⟩,
    ⟨fun h => ⟨_, _, decode_of_row decode_setdirWord h⟩, fun ⟨_, _, h⟩ => row_of_decode h⟩,
    ⟨fun h => ⟨_, _, decode_of_row decode_pinonWord h⟩, fun ⟨_, _, h⟩ => row_of_decode h⟩,
    ⟨fun h => ⟨_, _, decode_of_row decode_pinoffWord h⟩, fun ⟨_, _, h⟩ => row_of_decode h⟩,
    ⟨fun h => ⟨_, _, decode_of_row decode_writepinsWord h⟩, fun ⟨_, _, h⟩ => row_of_decode h⟩,
    ⟨fun h => ⟨_, _, decode_of_row decode_readpinWord h⟩, fun ⟨_, _, h⟩ => row_of_decode h⟩,
    ⟨fun h => ⟨_, decode_of_row decode_readportWord h⟩, fun ⟨_, h⟩ => row_of_decode h⟩⟩,
    fun s w rest ha hout => ?_⟩
  have hillegal : decode w = .reservedOp ∨ decode w = .reservedRsv := by
    cases hd : decode w with
    | instr i => exact absurd (row_of_decode hd) (hout _ (matchOf_mem i))
    | reservedOp => exact .inl rfl
    | reservedRsv => exact .inr rfl
  exact Machine.step_of_illegal ha hillegal

end Sys2Proof

/-! ## The response format (30_encoding.md R66, R67) -/

namespace Sys2Proof.Machine

/-- A response word is legal when its DATA is 0 with an error. -/
theorem legalResponse_responseWord {st : Status} {d : Byte} (hd : st ≠ .ok → d = 0x00#8) :
    LegalResponse (responseWord st d) := by
  obtain ⟨hzero, hstatus, hdata⟩ := responseWord_fields st d
  rw [LegalResponse, hstatus, hdata]
  refine ⟨hzero, ?_, fun hne => hd ?_⟩
  · cases st <;> decide
  · rintro rfl
    exact hne rfl

theorem ResponsesLegal.respond {s : State} (hs : ResponsesLegal s) {st : Status} {d : Byte}
    (hd : st ≠ .ok → d = 0x00#8) : ResponsesLegal (respond st d s) := by
  obtain ⟨hall, -⟩ := hs
  refine ⟨fun r hr => ?_, by simp⟩
  obtain hr | rfl : r ∈ s.responses ∨ r = responseWord st d := by simpa using hr
  · exact hall r hr
  · exact legalResponse_responseWord hd

theorem ResponsesLegal.memRead {s : State} (hs : ResponsesLegal s) (sel : Sel) : ResponsesLegal (memRead sel s).2 := by
  obtain ⟨v, n, -, he⟩ := memRead_spec sel s
  rwa [he]

theorem ResponsesLegal.raiseStatus {s : State} (hs : ResponsesLegal s) (st : Status) :
    ResponsesLegal (raiseStatus st s) :=
  hs.respond fun _ => rfl

theorem ResponsesLegal.readModifyWrite {s : State} (hs : ResponsesLegal s) (f : Byte → Byte) (sel : Sel) :
    ResponsesLegal (readModifyWrite f sel s) :=
  (hs.memRead sel).respond fun _ => rfl

/-- Only errors must have DATA 0, and a read command that reads answers OK. -/
theorem ResponsesLegal.readAndRespond {s : State} (hs : ResponsesLegal s) (f : Byte → Byte) (sel : Sel) :
    ResponsesLegal (readAndRespond f sel s) :=
  (hs.memRead sel).respond fun hok => absurd rfl hok

theorem exec_responsesLegal {i : Instr} {s t : State} (h : exec i s = .next t) (hs : ResponsesLegal s) :
    ResponsesLegal t := by
  obtain ⟨-, rfl⟩ | ⟨-, -, rfl⟩ | ⟨-, -, -, rfl⟩ | ⟨g, d, k, -, -, -, rfl⟩ | ⟨p, m, sel, f, -, -, -, rfl⟩ |
    ⟨p, b, sel, -, -, -, rfl⟩ | ⟨p, sel, f, -, -, -, rfl⟩ := exec_cases h
  · exact hs
  · exact hs.raiseStatus .notReady
  · exact hs.raiseStatus .invalidPort
  · exact hs.readModifyWrite (setDirBit k d) .dir
  · exact hs.readModifyWrite f sel
  · exact hs.raiseStatus .ok
  · exact hs.readAndRespond f sel

theorem initAnswer_responsesLegal (g : Answer) {s : State} (hs : ResponsesLegal s) : ResponsesLegal (initAnswer g s) := by
  cases g with
  | deny => exact hs.raiseStatus .permissionDenied
  | grant => exact hs.raiseStatus .ok

/-- Settles O23, by the cases of a step: what is answered is a response word, with DATA 0 in every error, and a reset empties
the record. -/
theorem responsesStayLegal : Obligations.ResponsesStayLegal := by
  intro s t hs h
  obtain ⟨_, ⟨sch, n, rfl⟩, -, hcase⟩ := step_cases h
  obtain ⟨_, rest, i, -, -, hexec⟩ | ⟨_, rest, -, -, rfl⟩ | ⟨-, rfl⟩ | ⟨w, -, rfl⟩ | ⟨g, -, rfl⟩ | ⟨-, -, -, rfl⟩ := hcase
  · exact exec_responsesLegal hexec hs
  · exact ResponsesLegal.raiseStatus (s := { s with schedule := sch, turns := n, held := rest }) hs .invalidOp
  · exact ⟨fun _ hr => absurd hr List.not_mem_nil, rfl⟩
  · exact hs
  · exact initAnswer_responsesLegal g (s := { s with schedule := sch, turns := n }) hs
  · exact hs

/-! ## The command port (30_encoding.md R61, 10_state.md R22) -/

/-- Settles O11. -/
theorem stepRunsTheDecodedCommand : Obligations.StepRunsTheDecodedCommand :=
  fun _ _ _ _ ha hd _ => step_of_instr ha hd

@[simp] theorem initAnswer_phase (g : Answer) (s : State) : (initAnswer g s).phase = .idle := by
  cases g <;> rfl

@[simp] theorem initAnswer_held (g : Answer) (s : State) : (initAnswer g s).held = s.held := by
  cases g <;> rfl

/-- `t` is `s` with exactly one response more and the phase and the words held as they were. -/
def AnsweredOnce (s t : State) : Prop :=
  t.phase = s.phase ∧ t.held = s.held ∧ ∃ r, t.rsp = some r ∧ t.responses = s.responses ++ [r]

/-- Every command but INIT is answered at once. -/
theorem exec_answeredOnce {i : Instr} {s t : State} (hi : i ≠ .init) (h : exec i s = .next t) : AnsweredOnce s t := by
  obtain ⟨-, hheld, -, -, -, hcmd, -⟩ := commandsLeaveTheRestAlone i s t h
  obtain ⟨hphase, -, hr⟩ := hcmd hi
  exact ⟨hphase, hheld, hr⟩

/-- An accepted word that is not INIT's is answered in the same step, legal or not. -/
theorem step_answeredOnce {s : State} {w : Word} {rest : List Word} (ha : Accepts s w rest)
    (hw : decode w ≠ .instr .init) :
    ∃ t, step s = .next t ∧ AnsweredOnce { (takeTurn s).2 with held := rest } t := by
  by_cases hd : decode w = .reservedOp ∨ decode w = .reservedRsv
  · exact ⟨_, step_of_illegal ha hd, rfl, rfl, _, rfl, rfl⟩
  · cases hi : decode w with
    | instr i =>
      obtain ⟨t, ht⟩ := exec_total i { (takeTurn s).2 with held := rest }
      exact ⟨t, (step_of_instr ha hi).trans ht, exec_answeredOnce (fun he => hw (he ▸ hi)) ht⟩
    | reservedOp => exact absurd (.inl hi) hd
    | reservedRsv => exact absurd (.inr hi) hd

/-- In WAIT_PRIV no step takes a word that is held. -/
theorem step_held_of_waitPriv {s t : State} (h : step s = .next t) (hp : s.phase = .waitPriv) :
    ∃ ws, t.held = s.held ++ ws := by
  obtain ⟨_, ⟨sch, n, rfl⟩, -, hcase⟩ := step_cases h
  have hno {w : Word} {rest : List Word} : ¬ Accepts s w rest := by
    rintro ⟨-, hidle, -⟩
    simp [hp] at hidle
  obtain ⟨_, _, _, ha, -, -⟩ | ⟨_, _, ha, -, -⟩ | ⟨-, rfl⟩ | ⟨w, -, rfl⟩ | ⟨g, -, rfl⟩ | ⟨-, -, -, rfl⟩ := hcase
  · exact absurd ha hno
  · exact absurd ha hno
  · exact ⟨[], by simp⟩
  · exact ⟨[w], rfl⟩
  · exact ⟨[], by simp⟩
  · exact ⟨[], by simp⟩

/-- Settles O14: in IDLE by what the word accepted decodes to, in WAIT_PRIV by the cases of a step. -/
theorem portTakesOneCommandAtATime : Obligations.PortTakesOneCommandAtATime := by
  refine ⟨fun s w rest ha hw => ?_, fun s w rest ha hw => ?_, fun s g hg => ?_,
    fun s hp ht => step_of_block_idle ht (.inl hp), fun s t h hp => step_held_of_waitPriv h hp, fun s w _ hm => ?_⟩
  · obtain ⟨t, ht, hphase, hheld, r, hrsp, hresp⟩ := step_answeredOnce ha hw
    obtain ⟨-, hidle, -⟩ := ha
    exact ⟨t, r, ht, by simpa [hidle] using hphase, hheld, hrsp, by simpa using hresp⟩
  · exact ⟨_, step_of_instr ha hw, rfl, rfl, takeTurn_rsp s, takeTurn_responses s⟩
  · obtain ⟨r, hrsp, hresp⟩ := initAnswer_responds g (takeTurn s).2
    exact ⟨_, r, step_of_answers hg, initAnswer_phase _ _, by simp, hrsp, by simpa using hresp⟩
  · rw [step_of_moves hm, applyMove, takeTurn_held]

end Sys2Proof.Machine

/-! ## INIT (40_init.md) -/

namespace Sys2Proof.Machine

/-! ### Its privilege requests (R80, R84) -/

/-- A command from IDLE: INIT ends in WAIT_PRIV with its request recorded last, and every other command stays in IDLE. -/
theorem exec_pendingRequestIsLast {i : Instr} {s t : State} (h : exec i s = .next t) (hp : s.phase = .idle) :
    PendingRequestIsLast t := by
  obtain ⟨-, rfl⟩ | ⟨hi, -⟩ := exec_accesses h
  · exact fun _ => List.getLast?_concat
  · obtain ⟨hphase, -⟩ := exec_answeredOnce hi h
    exact fun ht => by simp [hphase, hp] at ht

/-- Settles O25: the command port enters WAIT_PRIV only by INIT's request; a step that stays there records nothing, and an
answer or a reset ends in IDLE. -/
theorem pendingRequestStaysTheLastEvent : Obligations.PendingRequestStaysTheLastEvent := by
  intro s t hs h
  obtain ⟨_, ⟨sch, n, rfl⟩, -, hcase⟩ := step_cases h
  obtain ⟨_, rest, i, ⟨-, hp, -⟩, -, hexec⟩ | ⟨_, rest, -, -, rfl⟩ | ⟨-, rfl⟩ | ⟨w, -, rfl⟩ | ⟨g, -, rfl⟩ |
    ⟨-, -, -, rfl⟩ := hcase
  · exact exec_pendingRequestIsLast hexec hp
  · exact hs
  · exact fun ht => by simp at ht
  · exact hs
  · exact fun ht => by simp at ht
  · exact hs

/-- From `s` to `t` no privilege request is made: neither the trace nor the count of requests has one more. -/
def MakesNoRequest (s t : State) : Prop :=
  t.requests = s.requests ∧ t.trace.count .privRequest = s.trace.count .privRequest

theorem MakesNoRequest.refl (s : State) : MakesNoRequest s s := ⟨rfl, rfl⟩

/-- Bus accesses record reads and writes alone. -/
theorem BusAccesses.makesNoRequest {R : Sel → Prop} {s u : State} (h : BusAccesses R s u) : MakesNoRequest s u := by
  induction h with
  | none => exact .refl s
  | @read u sel _ _ ih =>
    obtain ⟨hreq, hcount⟩ := ih
    obtain ⟨v, n, -, he⟩ := memRead_spec sel u
    rw [he]
    exact ⟨hreq, by simpa using hcount⟩
  | write v _ _ ih =>
    obtain ⟨hreq, hcount⟩ := ih
    exact ⟨hreq, by simpa using hcount⟩

theorem exec_makesNoRequest {i : Instr} {s t : State} (hi : i ≠ .init) (h : exec i s = .next t) : MakesNoRequest s t := by
  obtain ⟨hinit, -⟩ | ⟨-, u, r, hu, rfl⟩ := exec_accesses h
  · exact absurd hinit hi
  · exact hu.makesNoRequest

theorem initAnswer_makesNoRequest (g : Answer) (s : State) : MakesNoRequest s (initAnswer g s) := by
  cases g with
  | deny => exact .refl s
  | grant =>
    rw [initAnswer_grant]
    exact ⟨rfl, by simp [answered]⟩

/-- Settles O19: an accepted INIT runs `privRequest`, and by the cases of a step no other makes a request; a reset keeps
the count and empties the trace. -/
theorem eachInitMakesExactlyOneRequest : Obligations.EachInitMakesExactlyOneRequest := by
  intro s t h
  refine ⟨fun ⟨w, rest, ha, hw⟩ => ?_, fun hno => ?_⟩
  · have hstep : step s = .next (privRequest { (takeTurn s).2 with held := rest }) := step_of_instr ha hw
    rw [hstep] at h
    cases h
    simp
  · obtain ⟨_, ⟨sch, n, rfl⟩, -, hcase⟩ := step_cases h
    have hkeep (hnone : MakesNoRequest s t) :
        t.requests = s.requests ∧ (¬ Moves s .reset → t.trace.count .privRequest = s.trace.count .privRequest) :=
      hnone.imp_right fun hcount _ => hcount
    obtain ⟨w, rest, i, ha, hw, hexec⟩ | ⟨_, rest, -, -, rfl⟩ | ⟨hm, rfl⟩ | ⟨w, -, rfl⟩ | ⟨g, -, rfl⟩ |
      ⟨-, -, -, rfl⟩ := hcase
    · have hi : i ≠ .init := fun he => hno w rest ha (he ▸ hw)
      have hnone := exec_makesNoRequest hi hexec
      exact hkeep hnone
    · exact hkeep (.refl s)
    · exact ⟨rfl, absurd hm⟩
    · exact hkeep (.refl s)
    · exact hkeep (initAnswer_makesNoRequest g { s with schedule := sch, turns := n })
    · exact hkeep (.refl s)

/-! ### Its words, its request and its answer (R80, R81, R83) -/

/-- A row of the opcode map whose words with RSV 0 decode to the row's command. -/
theorem rowDecodes_of_commandWord {matchValue : Word} {op : BitVec 3} {i : Port → Byte → Instr}
    (hm : matchValue = commandWord op 0#3 0#2 0#8)
    (hi : ∀ p a, decode (commandWord op p 0#2 a) = .instr (i (portOfCode p) a)) : RowDecodes matchValue op i := by
  subst hm
  refine ⟨fun w p hrow hport => ?_, fun s w rest ha _ hrsv => ?_⟩
  · have hp : portOfCode (fieldPort w) = p := (congrArg portOfCode hport).trans (portOfCode_code p)
    exact hp ▸ decode_of_row (i := fun p a => i (portOfCode p) a) hi hrow
  · exact step_of_illegal ha ((decode_rejects_iff w).2 (.inr hrsv))

/-- Settles O26: the row of OP 0, then INIT's two transitions. -/
theorem initRequestsThenProgramsTheRegisters : Obligations.InitRequestsThenProgramsTheRegisters := by
  refine ⟨rowDecodes_of_commandWord rfl decode_initWord, rfl, fun _ => rfl, fun _ hd => step_of_answers hd,
    fun s hg => ?_⟩
  rw [step_of_answers hg, initAnswer_grant, takeTurn_x, takeTurn_trace]
  rfl

/-- Once INIT has made its request in `s`, the answer the schedule holds for it is the one waited for. -/
theorem answers_privRequest {s : State} {g : Answer} {ms : List Turn}
    (h : s.schedule = .env (.answer (s.requests + 1) g) :: ms) : Answers (privRequest s) g :=
  ⟨rfl, congrArg Prod.fst (takeTurn_of_schedule (s := privRequest s) h)⟩

/-- `s` after an INIT whose request is answered with `g`, the turns `ms` still to come. -/
def initCompleted (g : Answer) (ms : List Turn) (s : State) : State :=
  initAnswer g { privRequest s with schedule := ms }

/-- On a GRANT the two registers INIT programs are rewritten, and no other. -/
theorem initCompleted_grant_x (ms : List Turn) (s : State) :
    (initCompleted .grant ms s).x = { s.x with base := .val 0x44#8, dir := .val 0x00#8 } := rfl

theorem initCompleted_grant_trace (ms : List Turn) (s : State) :
    (initCompleted .grant ms s).trace =
      s.trace ++ [.privRequest, .busWrite .base 0x44#8, .busWrite .dir 0x00#8] := by
  rw [initCompleted, initAnswer_grant]
  exact List.append_assoc ..

theorem step_privRequest {s : State} {g : Answer} {ms : List Turn}
    (h : s.schedule = .env (.answer (s.requests + 1) g) :: ms) :
    step (privRequest s) = .next (initCompleted g ms s) := by
  rw [step_of_answers (answers_privRequest h), takeTurn_of_schedule (s := privRequest s) h]
  rfl

/-- Settles O27: the request, then its answer. -/
theorem initCompletesWhenAnswered : Obligations.InitCompletesWhenAnswered := by
  intro s g ms h
  refine ⟨privRequest s, initCompleted g ms s, ?_⟩
  cases g with
  | grant => exact ⟨0x0000#16, rfl, rfl, step_privRequest h, rfl, rfl, rfl, by decide, by decide⟩
  | deny => exact ⟨0x0100#16, rfl, rfl, step_privRequest h, rfl, rfl, rfl, by decide, by decide⟩

/-- Settles O28: neither the request nor an answer leaves READY. -/
theorem initWhileReadyKeepsReady : Obligations.InitWhileReadyKeepsReady := by
  intro s g ms hm h
  refine ⟨privRequest s, initCompleted g ms s, rfl, hm, step_privRequest h, ?_⟩
  cases g with
  | grant => exact ⟨rfl, fun _ => ⟨rfl, initCompleted_grant_x ms s, initCompleted_grant_trace ms s⟩, nofun⟩
  | deny => exact ⟨hm, nofun, fun _ => ⟨rfl, rfl, rfl⟩⟩

theorem run_succ_of_step {M : Host.Core} {n : Nat} {s u : M.State} (h : M.step s = .next u) :
    M.run (n + 1) s = M.run n u := by
  rw [Host.Core.run, h]

/-- A run goes on from the state its first steps reach. -/
theorem run_add_of_run {M : Host.Core} {n : Nat} (k : Nat) {s t : M.State} (h : M.run n s = .next t) :
    M.run (n + k) s = M.run k t := by
  induction n generalizing s with
  | zero =>
    cases h
    rw [Nat.zero_add]
  | succ n ih =>
    obtain ⟨u, hu, hrun⟩ := run_succ_cases h
    rw [Nat.succ_add, run_succ_of_step hu, ih hrun]

/-- An INIT word held first, the block's turn and the answer to its request: INIT completes in two steps. -/
theorem run_two_of_init {s : State} {w : Word} {rest : List Word} {g : Answer} {ms : List Turn} (hp : s.phase = .idle)
    (hh : s.held = w :: rest) (hw : w &&& 0xE300#16 = 0x0000#16)
    (hs : s.schedule = .block :: .env (.answer (s.requests + 1) g) :: ms) :
    Sys2Proof.core.run 2 s = .next (initCompleted g ms { s with held := rest }) := by
  have hturn := takeTurn_of_schedule hs
  have haccept : Accepts s w rest := ⟨congrArg Prod.fst hturn, hp, hh⟩
  have hrequest : step s = .next (privRequest { (takeTurn s).2 with held := rest }) :=
    step_of_instr haccept (decode_of_row decode_initWord hw)
  rw [hturn] at hrequest
  have hanswer := step_privRequest (s := { s with schedule := .env (.answer (s.requests + 1) g) :: ms, held := rest }) rfl
  calc Sys2Proof.core.run 2 s
      = Sys2Proof.core.run 1 _ := run_succ_of_step hrequest
    _ = .next _ := run_succ_of_step hanswer

/-- Settles O29: the first INIT completes in IDLE with the second's word, turns and request number next. -/
theorem grantedInitTwiceEqualsOnce : Obligations.GrantedInitTwiceEqualsOnce := by
  intro s w1 w2 rest ms hp hh h1 h2 hs
  have hfirst := run_two_of_init hp hh h1 hs
  refine ⟨_, _, hfirst, (run_add_of_run 2 hfirst).trans (run_two_of_init rfl rfl h2 rfl), initCompleted_grant_x _ _,
    rfl, rfl, rfl, ?_⟩
  rw [initCompleted_grant_trace, initCompleted_grant_trace, List.append_assoc]
  rfl

end Sys2Proof.Machine

/-! ## SETDIR (41_direction.md) -/

namespace Sys2Proof.Machine

/-! ### Commands that are refused (60_exceptions.md R130) -/

theorem dataCommand_of_invalidPort {p : Port} {s : State} (body : Sel → State → State) (hm : s.mode = .ready)
    (hp : p.validData = false) : dataCommand p body s = raiseStatus .invalidPort s := by
  simp only [dataCommand, whenReady_ready _ hm, dataSel_eq_none_iff.2 hp]

/-- In READY a command on a port that is not valid for it is answered INVALID_PORT. -/
theorem exec_of_invalidPort {i : Instr} {s : State} (hm : s.mode = .ready) (hp : i.portValid = false) :
    exec i s = .next (raiseStatus .invalidPort s) := by
  cases i with
  | init => cases hp
  | setdir g d => simp only [exec, execSetdir, whenReady_ready _ hm, dirBit_eq_none_iff.2 hp]
  | pinon | pinoff | writepins | readpin | readport =>
    exact congrArg Host.Outcome.next (dataCommand_of_invalidPort _ hm hp)

/-- Every command but INIT has the mode gate and the port check. -/
theorem gated_portValid {i : Instr} (hi : i ≠ .init) : Gated i i.portValid :=
  fun _ => ⟨exec_of_uninit hi, exec_of_invalidPort⟩

/-! ### The direction byte (R90, R93) -/

theorem GroupBit.lt {g : Port} {k : Nat} (h : GroupBit g k) : k < 8 := by
  obtain ⟨-, rfl⟩ | ⟨-, rfl⟩ | ⟨-, rfl⟩ | ⟨-, rfl⟩ := h <;> decide

/-- Different groups have different bits (R91). -/
theorem GroupBit.group_inj {g g' : Port} {k : Nat} (h : GroupBit g k) (h' : GroupBit g' k) : g = g' := by
  obtain ⟨rfl, rfl⟩ | ⟨rfl, rfl⟩ | ⟨rfl, rfl⟩ | ⟨rfl, rfl⟩ := h <;> simpa [GroupBit, eq_comm] using h'

theorem bitMask_getLsbD {k : Nat} (hk : k < 8) (j : Nat) : (bitMask k).getLsbD j = decide (j = k) := by
  rw [bitMask, ← BitVec.twoPow_eq, BitVec.getLsbD_twoPow, decide_eq_true hk, Bool.true_and]
  exact decide_eq_decide.2 eq_comm

/-- Bit `k` becomes the direction, and every other bit is the byte's. -/
theorem setDirBit_getLsbD {k : Nat} (hk : k < 8) (d : Direction) (v : Byte) (j : Nat) :
    (setDirBit k d v).getLsbD j = if j = k then decide (d = .input) else v.getLsbD j := by
  cases d with
  | input =>
    rw [setDirBit, BitVec.getLsbD_or, bitMask_getLsbD hk]
    split <;> simp [*]
  | output =>
    rw [setDirBit, BitVec.getLsbD_and, BitVec.getLsbD_not, bitMask_getLsbD hk]
    split
    · simp [*]
    · simpa [*] using BitVec.lt_of_getLsbD

theorem setDirBit_idem {k : Nat} (hk : k < 8) (d : Direction) (v : Byte) :
    setDirBit k d (setDirBit k d v) = setDirBit k d v := by
  refine BitVec.eq_of_getLsbD_eq fun j _ => ?_
  rw [setDirBit_getLsbD hk, setDirBit_getLsbD hk]
  split <;> rfl

theorem setDirBit_comm {k l : Nat} (hk : k < 8) (hl : l < 8) (hkl : k ≠ l) (d e : Direction) (v : Byte) :
    setDirBit l e (setDirBit k d v) = setDirBit k d (setDirBit l e v) := by
  refine BitVec.eq_of_getLsbD_eq fun j _ => ?_
  simp only [setDirBit_getLsbD hk, setDirBit_getLsbD hl]
  by_cases hjk : j = k
  · rw [if_pos hjk, if_pos hjk, if_neg (hjk ▸ hkl)]
  · simp only [if_neg hjk]

/-- What SETDIR makes of the direction byte in READY, whatever port it names. -/
def setdirByte (g : Port) (d : Direction) (v : Byte) : Byte :=
  match dirBit g with
  | none => v
  | some k => setDirBit k d v

theorem setdirByte_of_groupBit {g : Port} {k : Nat} (h : GroupBit g k) (d : Direction) (v : Byte) :
    setdirByte g d v = setDirBit k d v := by
  simp only [setdirByte, dirBit_eq_some_iff.2 h]

theorem setdirByte_of_invalid {g : Port} (h : g.validGroup = false) (d : Direction) (v : Byte) : setdirByte g d v = v := by
  simp only [setdirByte, dirBit_eq_none_iff.2 h]

/-- A port is no direction group, or it has its bit. -/
theorem validGroup_cases (g : Port) :
    g.validGroup = false ∨ (g.validGroup = true ∧ ∃ k, GroupBit g k) := by
  cases g <;> simp [Port.validGroup, GroupBit]

theorem setdirByte_idem (g : Port) (d : Direction) (v : Byte) : setdirByte g d (setdirByte g d v) = setdirByte g d v := by
  obtain hg | ⟨-, k, hk⟩ := validGroup_cases g
  · rw [setdirByte_of_invalid hg]
  · simp only [setdirByte_of_groupBit hk, setDirBit_idem hk.lt]

theorem setdirByte_comm {g g' : Port} (hne : g ≠ g') (d d' : Direction) (v : Byte) :
    setdirByte g' d' (setdirByte g d v) = setdirByte g d (setdirByte g' d' v) := by
  obtain hg | ⟨-, k, hk⟩ := validGroup_cases g
  · simp only [setdirByte_of_invalid hg]
  obtain hg' | ⟨-, l, hl⟩ := validGroup_cases g'
  · simp only [setdirByte_of_invalid hg']
  have hkl : k ≠ l := fun he => hne (hk.group_inj (he ▸ hl))
  simp only [setdirByte_of_groupBit hk, setdirByte_of_groupBit hl, setDirBit_comm hk.lt hl.lt hkl]

/-! ### The command -/

theorem exec_setdir_of_groupBit {s : State} {g : Port} {k : Nat} (d : Direction) (hm : s.mode = .ready)
    (hk : GroupBit g k) : exec (.setdir g d) s = .next (readModifyWrite (setDirBit k d) .dir s) := by
  simp only [exec, execSetdir, whenReady_ready _ hm, dirBit_eq_some_iff.2 hk]

/-- Settles O30: the row of OP 1, the two refusals, then the read-modify-write of the direction register. -/
theorem setdirSetsTheGroupBit : Obligations.SetdirSetsTheGroupBit := by
  refine ⟨rowDecodes_of_commandWord rfl decode_setdirWord, fun g d => ?_, fun s g d k hm hk => ?_⟩
  · have hvalid : g.validGroup = decide (g = .a ∨ g = .b ∨ g = .cHigh ∨ g = .cLow) := by
      cases g <;> rfl
    exact hvalid ▸ gated_portValid (i := .setdir g d) nofun
  · obtain ⟨v, n, hv, -⟩ := memRead_spec .dir s
    refine ⟨v, setDirBit k d v, n, hv, fun hd => hd ▸ rfl, fun hd => hd ▸ rfl, ?_⟩
    rw [exec_setdir_of_groupBit d hm hk, readModifyWrite_eq _ hv]
    rfl

@[simp] theorem readModifyWrite_x (f : Byte → Byte) (sel : Sel) (s : State) :
    (readModifyWrite f sel s).x = s.x.set sel (f (memRead sel s).1) := by
  simp [readModifyWrite]

@[simp] theorem set_set_same (x : RegFile) (sel : Sel) (v w : Byte) : (x.set sel v).set sel w = x.set sel w := by
  cases sel <;> rfl

/-- SETDIR in READY: what a read of the direction register returns after it, and that this byte is written if the port is
a direction group. -/
theorem exec_setdir_of_ready {s t : State} {g : Port} {d : Direction} (hm : s.mode = .ready)
    (h : exec (.setdir g d) s = .next t) :
    (memRead .dir t).1 = setdirByte g d (memRead .dir s).1 ∧
      t.x = if g.validGroup = true then s.x.set .dir (memRead .dir t).1 else s.x := by
  obtain hg | ⟨hg, k, hk⟩ := validGroup_cases g
  · rw [exec_of_invalidPort (i := .setdir g d) hm hg] at h
    cases h
    obtain ⟨v, n, hv, hread⟩ := memRead_spec .dir s
    have hread' := memRead_eq (s := raiseStatus .invalidPort s) hv
    rw [hread', hread, setdirByte_of_invalid hg]
    exact ⟨rfl, by simp [hg]⟩
  · rw [exec_setdir_of_groupBit d hm hk] at h
    cases h
    have hx := readModifyWrite_x (setDirBit k d) .dir s
    have hread := memRead_of_val (.inr (.inl rfl)) (hx ▸ get_set_same ..)
    rw [hread, hx, setdirByte_of_groupBit hk, if_pos hg]
    exact ⟨rfl, rfl⟩

/-- In UNINIT no command changes a register (60_exceptions.md R138). -/
theorem exec_x_of_uninit {i : Instr} {s t : State} (hm : s.mode = .uninit) (h : exec i s = .next t) : t.x = s.x := by
  obtain ⟨-, rfl⟩ | ⟨hi, -⟩ := exec_accesses h
  · rfl
  · rw [exec_of_uninit hi hm] at h
    cases h
    rfl

/-- After SETDIR the group's bit is the direction, and every other bit and register is as before. -/
theorem exec_setdir_bits {s : State} {g : Port} {k : Nat} {v : Byte} (d : Direction) (hm : s.mode = .ready)
    (hk : GroupBit g k) (hx : s.x.get .dir = .val v) :
    ∃ t v', exec (.setdir g d) s = .next t ∧ t.rsp = some 0x0000#16 ∧ t.x.get .dir = .val v' ∧
      (v'.getLsbD k = true ↔ d = .input) ∧ (∀ j, j ≠ k → v'.getLsbD j = v.getLsbD j) ∧
      ∀ sel, sel ≠ .dir → t.x.get sel = s.x.get sel := by
  have hset : (readModifyWrite (setDirBit k d) .dir s).x = s.x.set .dir (setDirBit k d v) := by
    rw [readModifyWrite_x, memRead_of_val (.inr (.inl rfl)) hx]
  refine ⟨_, setDirBit k d v, exec_setdir_of_groupBit d hm hk, rfl, hset ▸ get_set_same .., ?_, fun j hj => ?_,
    fun sel hsel => hset ▸ get_set_other s.x _ hsel⟩
  · rw [setDirBit_getLsbD hk.lt, if_pos rfl, decide_eq_true_iff]
  · rw [setDirBit_getLsbD hk.lt, if_neg hj]

/-- A second equal SETDIR changes no register. -/
theorem exec_setdir_idem {s t u : State} {g : Port} {d : Direction} (ht : exec (.setdir g d) s = .next t)
    (hu : exec (.setdir g d) t = .next u) : u.x = t.x := by
  cases hm : s.mode with
  | uninit => exact exec_x_of_uninit ((exec_mode ht).trans hm) hu
  | ready =>
    obtain ⟨hbt, hxt⟩ := exec_setdir_of_ready hm ht
    obtain ⟨hbu, hxu⟩ := exec_setdir_of_ready ((exec_mode ht).trans hm) hu
    have hbyte : (memRead .dir u).1 = (memRead .dir t).1 := by rw [hbu, hbt, setdirByte_idem]
    rw [hxu, hxt, hbyte]
    split
    · exact set_set_same ..
    · rfl

/-- The registers after two SETDIRs in READY: the direction register has the byte the second leaves, if either port is a
direction group. -/
theorem exec_setdir_twice {s t u : State} {g g' : Port} {d d' : Direction} (hm : s.mode = .ready)
    (ht : exec (.setdir g d) s = .next t) (hu : exec (.setdir g' d') t = .next u) :
    u.x = if g.validGroup = true ∨ g'.validGroup = true
      then s.x.set .dir (setdirByte g' d' (setdirByte g d (memRead .dir s).1)) else s.x := by
  obtain ⟨hbt, hxt⟩ := exec_setdir_of_ready hm ht
  obtain ⟨hbu, hxu⟩ := exec_setdir_of_ready ((exec_mode ht).trans hm) hu
  rw [hxu, hxt, hbu, hbt]
  cases hg' : g'.validGroup with
  | false => simp [setdirByte_of_invalid hg']
  | true => cases hg : g.validGroup <;> simp

/-- SETDIRs of two groups give the same registers in either order. -/
theorem exec_setdir_comm {s t1 u1 t2 u2 : State} {g1 g2 : Port} {d1 d2 : Direction} (hne : g1 ≠ g2)
    (ht1 : exec (.setdir g1 d1) s = .next t1) (hu1 : exec (.setdir g2 d2) t1 = .next u1)
    (ht2 : exec (.setdir g2 d2) s = .next t2) (hu2 : exec (.setdir g1 d1) t2 = .next u2) : u1.x = u2.x := by
  cases hm : s.mode with
  | uninit =>
    have h1 : u1.x = s.x := (exec_x_of_uninit ((exec_mode ht1).trans hm) hu1).trans (exec_x_of_uninit hm ht1)
    have h2 : u2.x = s.x := (exec_x_of_uninit ((exec_mode ht2).trans hm) hu2).trans (exec_x_of_uninit hm ht2)
    rw [h1, h2]
  | ready =>
    rw [exec_setdir_twice hm ht1 hu1, exec_setdir_twice hm ht2 hu2, setdirByte_comm hne]
    simp only [or_comm]

/-- Settles O31: a set or cleared bit leaves the others, is set or cleared twice as once, and two bits in either order. -/
theorem setdirGroupsAreIndependent : Obligations.SetdirGroupsAreIndependent :=
  ⟨fun _ _ d _ _ hm hk hx => exec_setdir_bits d hm hk hx, fun _ _ _ _ _ => exec_setdir_idem,
    fun _ _ _ _ _ _ _ _ _ => exec_setdir_comm⟩

end Sys2Proof.Machine

/-! ## PINON and PINOFF (42_pin_level.md) -/

namespace Sys2Proof.Machine

/-! ### A data command on a port it accepts (R102) -/

theorem dataCommand_of_uninit (p : Port) {s : State} (body : Sel → State → State) (hm : s.mode = .uninit) :
    dataCommand p body s = raiseStatus .notReady s :=
  whenReady_uninit _ hm

theorem dataCommand_of_routes {p : Port} {sel : Sel} {s : State} (body : Sel → State → State) (hm : s.mode = .ready)
    (hr : Routes p sel) : dataCommand p body s = body sel s := by
  simp only [dataCommand, whenReady_ready _ hm, dataSel_eq_some_iff.2 hr]

/-- The ports valid for a data command (30_encoding.md R63). -/
theorem validData_eq_decide (p : Port) : p.validData = decide (p = .a ∨ p = .b ∨ p = .c) := by
  cases p <;> rfl

theorem dataCommand_readModifyWrite_eq {p : Port} {sel : Sel} {s : State} {v : Byte} {n : Nat} (f : Byte → Byte)
    (hm : s.mode = .ready) (hr : Routes p sel) (hv : ReadOutcome s sel v n) :
    dataCommand p (readModifyWrite f) s =
      answered 0x0000#16
        { s with
          x := s.x.set sel (f v)
          trace := s.trace ++ [.busRead sel v, .busWrite sel (f v)]
          draws := n } :=
  (dataCommand_of_routes _ hm hr).trans (readModifyWrite_eq f hv)

/-! ### The byte written, lane by lane (R100, R101, R103) -/

theorem setPins_getLsbD (m v : Byte) (k : Nat) : (setPins m v).getLsbD k = (v.getLsbD k || m.getLsbD k) :=
  BitVec.getLsbD_or

theorem clearPins_getLsbD (m v : Byte) {k : Nat} (hk : k < 8) :
    (clearPins m v).getLsbD k = (v.getLsbD k && !m.getLsbD k) := by
  rw [clearPins, BitVec.getLsbD_and, BitVec.getLsbD_not, decide_eq_true hk, Bool.true_and]

/-- PINOFF's byte in the spec's words: the complement of the mask is `mask ^ 0xFF`. -/
theorem clearPins_eq_and_xor (m v : Byte) : clearPins m v = v &&& (m ^^^ 0xFF#8) :=
  congrArg (v &&& ·) BitVec.xor_allOnes.symm

theorem setPins_and_mask (m v : Byte) : setPins m v &&& m = m := by
  refine BitVec.eq_of_getLsbD_eq fun k _ => ?_
  rw [BitVec.getLsbD_and, setPins_getLsbD]
  cases m.getLsbD k <;> simp

theorem clearPins_and_mask (m v : Byte) : clearPins m v &&& m = 0#8 := by
  refine BitVec.eq_of_getLsbD_eq fun k hk => ?_
  rw [BitVec.getLsbD_and, clearPins_getLsbD m v hk, BitVec.getLsbD_zero, Bool.and_assoc, Bool.not_and_self,
    Bool.and_false]

theorem setPins_idem (m v : Byte) : setPins m (setPins m v) = setPins m v := by
  rw [setPins, setPins, BitVec.or_assoc, BitVec.or_self]

theorem clearPins_idem (m v : Byte) : clearPins m (clearPins m v) = clearPins m v := by
  rw [clearPins, clearPins, BitVec.and_assoc, BitVec.and_self]

/-! ### The two commands -/

/-- Settles O32: the row of OP 2, the two refusals, then the read-modify-write of the port's register. -/
theorem pinonSetsTheMaskedPins : Obligations.PinonSetsTheMaskedPins := by
  refine ⟨rowDecodes_of_commandWord rfl decode_pinonWord,
    fun p m => validData_eq_decide p ▸ gated_portValid (i := .pinon p m) nofun, fun s p m sel hm hr => ?_⟩
  obtain ⟨v, n, hv, -⟩ := memRead_spec sel s
  exact ⟨v, n, hv, congrArg Host.Outcome.next (dataCommand_readModifyWrite_eq (setPins m) hm hr hv)⟩

/-- Settles O33: the row of OP 3, the two refusals, then the read-modify-write of the port's register. -/
theorem pinoffClearsTheMaskedPins : Obligations.PinoffClearsTheMaskedPins := by
  refine ⟨rowDecodes_of_commandWord rfl decode_pinoffWord,
    fun p m => validData_eq_decide p ▸ gated_portValid (i := .pinoff p m) nofun, fun s p m sel hm hr => ?_⟩
  obtain ⟨v, n, hv, -⟩ := memRead_spec sel s
  have hoff := dataCommand_readModifyWrite_eq (clearPins m) hm hr hv
  rw [clearPins_eq_and_xor] at hoff
  exact ⟨v, n, hv, congrArg Host.Outcome.next hoff⟩

/-! ### Reading the register after a command (R103) -/

@[simp] theorem readModifyWrite_mode (f : Byte → Byte) (sel : Sel) (s : State) :
    (readModifyWrite f sel s).mode = s.mode := by
  obtain ⟨v, n, -, he⟩ := memRead_spec sel s
  rw [readModifyWrite, respond_mode, memWrite_mode, he]

/-- Under `Store` the byte a read-modify-write leaves is the byte the next read returns. -/
theorem memRead_readModifyWrite {s : State} (f : Byte → Byte) (sel : Sel) (hst : s.readSource = .store) :
    (memRead sel (readModifyWrite f sel s)).1 = f (memRead sel s).1 := by
  have hx : (readModifyWrite f sel s).x.get sel = .val (f (memRead sel s).1) := by rw [readModifyWrite_x, get_set_same]
  have hst' : (readModifyWrite f sel s).readSource = .store := (readModifyWrite_readSource f sel s).trans hst
  rw [memRead_of_val (.inr (.inr hst')) hx]

/-- READPORT in READY answers OK with the byte its one read returns. -/
theorem exec_readport_of_routes {s : State} {p : Port} {sel : Sel} (hm : s.mode = .ready) (hr : Routes p sel) :
    exec (.readport p) s = .next (respond .ok (memRead sel s).1 (memRead sel s).2) :=
  congrArg Host.Outcome.next (dataCommand_of_routes _ hm hr)

/-- Under `Store`, when `f` leaves the masked bits `a`, a READPORT after the read-modify-write by `f` answers OK with the
masked bits `a`. -/
theorem readport_after_readModifyWrite {f : Byte → Byte} {m a : Byte} (hf : ∀ v, f v &&& m = a) {s u : State} {p : Port}
    {sel : Sel} (hm : s.mode = .ready) (hr : Routes p sel) (hst : s.readSource = .store)
    (hu : exec (.readport p) (dataCommand p (readModifyWrite f) s) = .next u) :
    ∃ r, u.rsp = some r ∧ statusField r = 0#3 ∧ dataField r &&& m = a := by
  have hm' : (readModifyWrite f sel s).mode = .ready := (readModifyWrite_mode f sel s).trans hm
  rw [dataCommand_of_routes _ hm hr, exec_readport_of_routes hm' hr] at hu
  cases hu
  obtain ⟨-, hstatus, hdata⟩ := responseWord_fields .ok (memRead sel (readModifyWrite f sel s)).1
  refine ⟨_, rfl, hstatus, ?_⟩
  rw [hdata, memRead_readModifyWrite f sel hst, hf]

/-- Under `Store` an idempotent read-modify-write leaves the registers when done twice as when done once. -/
theorem readModifyWrite_idem {f : Byte → Byte} (hf : ∀ v, f (f v) = f v) {s : State} (sel : Sel)
    (hst : s.readSource = .store) :
    (readModifyWrite f sel (readModifyWrite f sel s)).x = (readModifyWrite f sel s).x := by
  rw [readModifyWrite_x, memRead_readModifyWrite f sel hst, hf, readModifyWrite_x, set_set_same]

/-- And so does a data command in every mode and on every port: one that is refused is refused again. -/
theorem dataCommand_readModifyWrite_idem {f : Byte → Byte} (hf : ∀ v, f (f v) = f v) {s : State} (p : Port)
    (hst : s.readSource = .store) :
    (dataCommand p (readModifyWrite f) (dataCommand p (readModifyWrite f) s)).x =
      (dataCommand p (readModifyWrite f) s).x := by
  obtain ⟨hm, he⟩ | ⟨hm, hp, he⟩ | ⟨sel, hm, hr, he⟩ := dataCommand_cases p (readModifyWrite f) s
  · have hm' : (raiseStatus .notReady s).mode = .uninit := hm
    rw [he, dataCommand_of_uninit p _ hm', raiseStatus_x]
  · have hm' : (raiseStatus .invalidPort s).mode = .ready := hm
    rw [he, dataCommand_of_invalidPort _ hm' hp, raiseStatus_x]
  · have hm' : (readModifyWrite f sel s).mode = .ready := (readModifyWrite_mode f sel s).trans hm
    rw [he, dataCommand_of_routes _ hm' hr, readModifyWrite_idem hf sel hst]

theorem drawnRead_of_external {s : State} {p : Port} {sel : Sel} (hr : Routes p sel) (hext : s.readSource = .external) :
    DrawnRead s sel := by
  obtain ⟨-, rfl⟩ | ⟨-, rfl⟩ | ⟨-, rfl⟩ := hr <;> simp [DrawnRead, hext]

/-- Settles O34: the lanes of the byte written; under `Store` the next read returns that byte, so READPORT shows the masked
bits and a second command writes the same byte; under `External` the read is drawn. -/
theorem pinCommandsActLaneByLane : Obligations.PinCommandsActLaneByLane := by
  refine ⟨fun s p m sel hm hr => ?_, fun s p m sel t u hm hr hst ht hu => ?_, fun s p m sel t u hm hr hst ht hu => ?_,
    fun s p m t u hst ht hu => ?_, fun s p m t u hst ht hu => ?_, fun s p sel hm hr hext => ?_⟩
  · obtain ⟨v, n, hv, -⟩ := memRead_spec sel s
    have hon := dataCommand_readModifyWrite_eq (setPins m) hm hr hv
    have hoff := dataCommand_readModifyWrite_eq (clearPins m) hm hr hv
    exact ⟨v, n, _, _, setPins m v, clearPins m v, hv, congrArg Host.Outcome.next hon, congrArg Host.Outcome.next hoff,
      get_set_same .., get_set_same .., fun k hk => ⟨setPins_getLsbD m v k, clearPins_getLsbD m v hk⟩⟩
  · cases ht
    exact readport_after_readModifyWrite (setPins_and_mask m) hm hr hst hu
  · cases ht
    exact readport_after_readModifyWrite (clearPins_and_mask m) hm hr hst hu
  · cases ht
    cases hu
    exact dataCommand_readModifyWrite_idem (setPins_idem m) p hst
  · cases ht
    cases hu
    exact dataCommand_readModifyWrite_idem (clearPins_idem m) p hst
  · have hread := memRead_of_drawnRead (drawnRead_of_external hr hext)
    refine ⟨_, exec_readport_of_routes hm hr, ?_⟩
    rw [respond_rsp, hread]
    rfl

end Sys2Proof.Machine

/-! ## WRITEPINS, READPIN and READPORT (43_port_data.md) -/

namespace Sys2Proof.Machine

/-! ### WRITEPINS (R110, R111) -/

/-- WRITEPINS in READY writes the byte and answers OK. -/
theorem exec_writepins_of_routes {s : State} {p : Port} {sel : Sel} (b : Byte) (hm : s.mode = .ready)
    (hr : Routes p sel) : exec (.writepins p b) s = .next (answered 0x0000#16 (memWrite sel b s)) :=
  congrArg Host.Outcome.next (dataCommand_of_routes _ hm hr)

/-- Settles O36: the row of OP 4, the two refusals, then the write of the port's register. -/
theorem writepinsOverwritesThePort : Obligations.WritepinsOverwritesThePort :=
  ⟨rowDecodes_of_commandWord rfl decode_writepinsWord,
    fun p b => validData_eq_decide p ▸ gated_portValid (i := .writepins p b) nofun,
    fun _ _ b _ hm hr => exec_writepins_of_routes b hm hr⟩

theorem exists_routes {p : Port} (hp : p = .a ∨ p = .b ∨ p = .c) : ∃ sel, Routes p sel := by
  obtain rfl | rfl | rfl := hp
  · exact ⟨.dataA, .inl ⟨rfl, rfl⟩⟩
  · exact ⟨.dataB, .inr (.inl ⟨rfl, rfl⟩)⟩
  · exact ⟨.dataC, .inr (.inr ⟨rfl, rfl⟩)⟩

/-- READPORT in READY answers `0#8` and the byte that its read gives. -/
theorem exec_readport_of_readOutcome {s : State} {p : Port} {sel : Sel} {v : Byte} {n : Nat} (hm : s.mode = .ready)
    (hr : Routes p sel) (hv : ReadOutcome s sel v n) :
    exec (.readport p) s =
      .next (answered (0#8 ++ v) { s with trace := s.trace ++ [.busRead sel v], draws := n }) :=
  congrArg Host.Outcome.next ((dataCommand_of_routes _ hm hr).trans (readAndRespond_eq (fun v => v) hv))

/-- Settles O37: after the write the register holds the byte, which the read returns under `Store`; under `External` the
read is drawn, and WRITEPINS draws nothing. -/
theorem writepinsThenReadportRoundTrips : Obligations.WritepinsThenReadportRoundTrips := by
  intro s p b hm hp
  obtain ⟨sel, hr⟩ := exists_routes hp
  obtain ⟨v, n, hv, -⟩ := memRead_spec sel (answered 0x0000#16 (memWrite sel b s))
  refine ⟨_, _, exec_writepins_of_routes b hm hr, exec_readport_of_readOutcome hm hr hv, fun hst => ?_, fun hext => ?_⟩
  · have hvb : v = b := hv.eq_of_readsBack (.inl hst) (get_set_same s.x sel b)
    rw [hvb]
    rfl
  · have hdrawn : DrawnRead (answered 0x0000#16 (memWrite sel b s)) sel := drawnRead_of_external hr hext
    have hvd : v = Config.draw s.draws := (readOutcome_unique hv (.inl ⟨hdrawn, rfl, rfl⟩)).1
    rw [hvd]
    rfl

/-! ### READPIN (R112, R113) -/

theorem allSet_iff (m v : Byte) : allSet m v = true ↔ v &&& m = m := beq_iff_eq

/-- READPIN's test is the AND over the masked lanes, and true for no lanes. -/
theorem and_eq_mask_iff (m v : Byte) :
    v &&& m = m ↔ ∀ k, k < 8 → m.getLsbD k = true → v.getLsbD k = true := by
  constructor
  · intro h k _ hmk
    rw [← h, BitVec.getLsbD_and, Bool.and_eq_true] at hmk
    exact hmk.1
  · intro h
    refine BitVec.eq_of_getLsbD_eq fun k hk => ?_
    rw [BitVec.getLsbD_and]
    cases hmk : m.getLsbD k with
    | false => rw [Bool.and_false]
    | true => rw [h k hk hmk, Bool.and_true]

/-- READPIN's response word. -/
def readpinWord (m v : Byte) : Word := if v &&& m = m then 0x0001#16 else 0x0000#16

theorem responseWord_boolData_allSet (m v : Byte) : responseWord .ok (boolData (allSet m v)) = readpinWord m v := by
  by_cases h : v &&& m = m
  · rw [(allSet_iff m v).2 h, readpinWord, if_pos h]
    rfl
  · rw [Bool.eq_false_iff.2 (mt (allSet_iff m v).1 h), readpinWord, if_neg h]
    rfl

theorem readpinWord_cases (m v : Byte) : readpinWord m v = 0x0001#16 ∨ readpinWord m v = 0x0000#16 :=
  ite_eq_or_eq ..

theorem readpinWord_eq_one_iff (m v : Byte) : readpinWord m v = 0x0001#16 ↔ v &&& m = m := by
  rw [readpinWord]
  split <;> simp [*]

/-- READPIN in READY answers its test of the byte that its read gives. -/
theorem exec_readpin_of_readOutcome {s : State} {p : Port} {sel : Sel} {v : Byte} {n : Nat} (m : Byte)
    (hm : s.mode = .ready) (hr : Routes p sel) (hv : ReadOutcome s sel v n) :
    exec (.readpin p m) s =
      .next (answered (readpinWord m v) { s with trace := s.trace ++ [.busRead sel v], draws := n }) := by
  rw [← responseWord_boolData_allSet]
  exact congrArg Host.Outcome.next ((dataCommand_of_routes _ hm hr).trans (readAndRespond_eq _ hv))

/-- Settles O38: the row of OP 5, the two refusals, then the read of the port's register. -/
theorem readpinTestsThatAllMaskedPinsAreHigh : Obligations.ReadpinTestsThatAllMaskedPinsAreHigh := by
  refine ⟨rowDecodes_of_commandWord rfl decode_readpinWord,
    fun p m => validData_eq_decide p ▸ gated_portValid (i := .readpin p m) nofun, fun s p m sel hm hr => ?_⟩
  obtain ⟨v, n, hv, -⟩ := memRead_spec sel s
  exact ⟨v, n, hv, exec_readpin_of_readOutcome m hm hr hv⟩

/-- Settles O39: both commands read the register once, and READPORT leaves it as it was, so that under `Store` a written
register gives both the same byte. -/
theorem readpinAgreesWithReadport : Obligations.ReadpinAgreesWithReadport := by
  intro s p m sel hm hr
  obtain ⟨v, n, hv, -⟩ := memRead_spec sel s
  obtain ⟨v', n', hv', -⟩ :=
    memRead_spec sel (answered (0#8 ++ v) { s with trace := s.trace ++ [.busRead sel v], draws := n })
  have htrue : some (readpinWord m v') = some 0x0001#16 ↔ v' &&& m = m :=
    Option.some_inj.trans (readpinWord_eq_one_iff m v')
  refine ⟨v, _, v', n', _, exec_readport_of_readOutcome hm hr hv, rfl, hv', exec_readpin_of_readOutcome m hm hr hv',
    (readpinWord_cases m v').imp (congrArg some) (congrArg some), htrue.trans (and_eq_mask_iff m v'),
    fun he => he ▸ htrue, fun w hst hx => ?_⟩
  calc v' = w := hv'.eq_of_readsBack (.inl hst) hx
    _ = v := (hv.eq_of_readsBack (.inl hst) hx).symm

/-! ### READPORT, and what both read commands leave alone (R114, R115) -/

/-- Settles O40: the row of OP 6, the two refusals, then the read of the port's register. -/
theorem readportReturnsTheRegisterByte : Obligations.ReadportReturnsTheRegisterByte := by
  refine ⟨rowDecodes_of_commandWord rfl decode_readportWord,
    fun p => validData_eq_decide p ▸ gated_portValid (i := .readport p) nofun, fun s p sel hm hr => ?_⟩
  obtain ⟨v, n, hv, -⟩ := memRead_spec sel s
  exact ⟨v, n, hv, exec_readport_of_readOutcome hm hr hv⟩

/-- A read command answers an error and does nothing else, or reads one register and answers OK. -/
theorem dataCommand_readAndRespond_cases (p : Port) (f : Byte → Byte) (s : State) :
    (∃ r, statusField r ≠ 0#3 ∧ dataCommand p (readAndRespond f) s = answered r s) ∨
      ∃ r sel v n, statusField r = 0#3 ∧ dataCommand p (readAndRespond f) s =
        answered r { s with trace := s.trace ++ [.busRead sel v], draws := n } := by
  obtain ⟨-, he⟩ | ⟨-, -, he⟩ | ⟨sel, -, -, he⟩ := dataCommand_cases p (readAndRespond f) s
  · exact .inl ⟨_, by decide, he⟩
  · exact .inl ⟨_, by decide, he⟩
  · obtain ⟨v, n, hv, -⟩ := memRead_spec sel s
    obtain ⟨-, hstatus, -⟩ := responseWord_fields .ok (f v)
    exact .inr ⟨_, sel, v, n, hstatus, he.trans (readAndRespond_eq f hv)⟩

/-- Settles O41: READPIN and READPORT are one read command with two functions of the byte. -/
theorem readCommandsWriteNoRegister : Obligations.ReadCommandsWriteNoRegister := by
  intro i s t hi h
  have hcommand : ∃ p f, t = dataCommand p (readAndRespond f) s := by
    obtain ⟨p, m, rfl⟩ | ⟨p, rfl⟩ := hi <;> cases h
    · exact ⟨p, fun v => boolData (allSet m v), rfl⟩
    · exact ⟨p, fun v => v, rfl⟩
  obtain ⟨p, f, rfl⟩ := hcommand
  obtain ⟨r, hstatus, he⟩ | ⟨r, sel, v, n, hstatus, he⟩ := dataCommand_readAndRespond_cases p f s <;> rw [he]
  · exact ⟨rfl, rfl, rfl, r, rfl, .inr ⟨hstatus, rfl, rfl⟩⟩
  · exact ⟨rfl, rfl, rfl, r, rfl, .inl ⟨hstatus, sel, v, rfl⟩⟩

/-! ### The direction register (R116) -/

/-- `s` with the direction register's cell replaced. -/
def withDir (d : Cell) (s : State) : State := { s with x := { s.x with dir := d } }

theorem withDir_get (d : Cell) (s : State) {sel : Sel} (h : .dir ≠ sel) : (withDir d s).x.get sel = s.x.get sel := by
  cases sel with
  | dir => exact absurd rfl h
  | base | dataA | dataB | dataC => rfl

theorem respond_withDir (st : Status) (b : Byte) (d : Cell) (s : State) :
    respond st b (withDir d s) = withDir d (respond st b s) := rfl

theorem memWrite_withDir (d : Cell) (v : Byte) (s : State) {sel : Sel} (h : .dir ≠ sel) :
    memWrite sel v (withDir d s) = withDir d (memWrite sel v s) := by
  cases sel with
  | dir => exact absurd rfl h
  | base | dataA | dataB | dataC => rfl

theorem memRead_withDir (d : Cell) (s : State) {sel : Sel} (h : .dir ≠ sel) :
    memRead sel (withDir d s) = ((memRead sel s).1, withDir d (memRead sel s).2) := by
  obtain ⟨v, n, hv, he⟩ := memRead_spec sel s
  have hv' : ReadOutcome (withDir d s) sel v n := by
    rw [ReadOutcome, DrawnRead, withDir_get d s h]
    exact hv
  rw [he, memRead_eq hv']
  rfl

theorem readModifyWrite_withDir (f : Byte → Byte) (d : Cell) (s : State) {sel : Sel} (h : .dir ≠ sel) :
    readModifyWrite f sel (withDir d s) = withDir d (readModifyWrite f sel s) := by
  rw [readModifyWrite, memRead_withDir d s h, memWrite_withDir d _ _ h, respond_withDir, readModifyWrite]

theorem readAndRespond_withDir (f : Byte → Byte) (d : Cell) (s : State) {sel : Sel} (h : .dir ≠ sel) :
    readAndRespond f sel (withDir d s) = withDir d (readAndRespond f sel s) := by
  rw [readAndRespond, memRead_withDir d s h, respond_withDir, readAndRespond]

/-- A data command ignores the direction register when its body does on every other register. -/
theorem dataCommand_withDir {p : Port} {body : Sel → State → State} {d : Cell} {s : State}
    (hbody : ∀ sel, .dir ≠ sel → body sel (withDir d s) = withDir d (body sel s)) :
    dataCommand p body (withDir d s) = withDir d (dataCommand p body s) := by
  obtain ⟨hm, he⟩ | ⟨hm, hp, he⟩ | ⟨sel, hm, hr, he⟩ := dataCommand_cases p body s <;> rw [he]
  · exact dataCommand_of_uninit p body hm
  · exact dataCommand_of_invalidPort body hm hp
  · exact (dataCommand_of_routes (s := withDir d s) body hm hr).trans (hbody sel hr.ne_dir)

/-- Data commands do the same whatever the direction register holds. -/
theorem exec_withDir {i : Instr} {s t : State} (hi : DataCommand i) (d : Cell) (h : exec i s = .next t) :
    exec i (withDir d s) = .next (withDir d t) := by
  obtain ⟨p, m, rfl | rfl | rfl | rfl | rfl⟩ := hi <;> cases h <;> refine congrArg Host.Outcome.next (dataCommand_withDir ?_)
  · exact fun sel hsel => readModifyWrite_withDir _ d s hsel
  · exact fun sel hsel => readModifyWrite_withDir _ d s hsel
  · exact fun sel hsel => congrArg (respond .ok 0x00#8) (memWrite_withDir d m s hsel)
  · exact fun sel hsel => readAndRespond_withDir _ d s hsel
  · exact fun sel hsel => readAndRespond_withDir _ d s hsel

theorem not_reaches_dir_of_dataCommand {i : Instr} (hi : DataCommand i) : ¬ Reaches i .dir := by
  intro hreach
  obtain ⟨p, m, rfl | rfl | rfl | rfl | rfl⟩ := hi <;> exact Routes.ne_dir hreach rfl

/-- Settles O42: the shared operations ignore the cell of a register they do not access, and a data command does not reach
the direction register. -/
theorem dataCommandsIgnoreDirection : Obligations.DataCommandsIgnoreDirection := by
  intro i s t d hi h
  have hdir := not_reaches_dir_of_dataCommand hi
  obtain ⟨hget, es, htr, haccess⟩ := commandsReachOnlyTheirRegister.1 i s t h
  exact ⟨exec_withDir hi d h, hget .dir hdir, es, htr,
    fun v => ⟨fun hr => hdir (haccess .dir v (.inl hr)), fun hw => hdir (haccess .dir v (.inr hw))⟩⟩

end Sys2Proof.Machine

/-! ## Errors and completion (60_exceptions.md) -/

namespace Sys2Proof.Machine

/-! ### In UNINIT nothing has been reached (R138) -/

/-- In UNINIT a command makes INIT's request or is answered NOT_READY, and neither reaches a register. -/
theorem exec_uninitReachesNothing {i : Instr} {s t : State} (h : exec i s = .next t) (hs : UninitReachesNothing s) :
    UninitReachesNothing t := by
  intro ht
  have hm : s.mode = .uninit := exec_mode h ▸ ht
  obtain ⟨hx, htr⟩ := hs hm
  by_cases hi : i = .init
  · subst hi
    cases h
    refine ⟨hx, fun e he => ?_⟩
    obtain he | rfl : e ∈ s.trace ∨ e = .privRequest := by simpa using he
    · exact htr e he
    · rfl
  · rw [exec_of_uninit hi hm] at h
    cases h
    exact ⟨hx, htr⟩

/-- Settles O24: a command keeps it, a denial reaches no register, a GRANT leaves UNINIT, and a reset makes every register
`Unwritten` and empties the trace. -/
theorem uninitStaysUntouched : Obligations.UninitStaysUntouched := by
  refine fun s t hs h => step_keeps h (fun u hm hx htr _ => ?_) (fun _ _ _ => exec_uninitReachesNothing)
    (fun g u hu => ?_) (fun _ _ _ => ⟨get_unwritten, fun _ he => absurd he List.not_mem_nil⟩)
  · rwa [UninitReachesNothing, hm, hx, htr]
  · cases g with
    | deny => exact hu
    | grant => exact fun hm => Mode.noConfusion hm

/-! ### The machine never stops (R133, R137) -/

/-- In its turn the block can accept nothing, or it accepts the first word held. -/
theorem block_idle_or_accepts {s : State} (ht : (takeTurn s).1 = .block) :
    (s.phase = .waitPriv ∨ s.held = []) ∨ ∃ w rest, Accepts s w rest := by
  cases hp : s.phase with
  | waitPriv => exact .inl (.inl rfl)
  | idle =>
    cases hh : s.held with
    | nil => exact .inl (.inr rfl)
    | cons w rest => exact .inr ⟨w, rest, ht, hp, hh⟩

/-- An accepted word is executed, or answered as illegal. -/
theorem step_total_of_accepts {s : State} {w : Word} {rest : List Word} (ha : Accepts s w rest) :
    ∃ t, step s = .next t := by
  cases hd : decode w with
  | instr i =>
    rw [step_of_instr ha hd]
    exact exec_total i _
  | reservedOp => exact ⟨_, step_of_illegal ha (.inl hd)⟩
  | reservedRsv => exact ⟨_, step_of_illegal ha (.inr hd)⟩

/-- Settles O13: an environment's move always has a next state, and so has a turn of the block, with a word to accept or
without. -/
theorem everyStepAnswersANextState : Obligations.EveryStepAnswersANextState := by
  intro s
  cases ht : (takeTurn s).1 with
  | block =>
    obtain hidle | ⟨w, rest, ha⟩ := block_idle_or_accepts ht
    · exact ⟨_, step_of_block_idle ht hidle⟩
    · exact step_total_of_accepts ha
  | env m => exact ⟨_, step_of_moves ht⟩

/-! ### Completion with OK (R138) -/

@[simp] theorem statusField_responseWord (st : Status) (d : Byte) : statusField (responseWord st d) = statusCode st := by
  obtain ⟨-, hstatus, -⟩ := responseWord_fields st d
  exact hstatus

/-- The one response of a command on a valid port in READY has status OK. -/
theorem exec_responds_ok {i : Instr} {s t : State} (hi : i ≠ .init) (hm : s.mode = .ready) (hp : i.portValid = true)
    (h : exec i s = .next t) :
    ∃ r, t.rsp = some r ∧ t.responses = s.responses ++ [r] ∧ statusField r = 0#3 := by
  obtain ⟨d, hd⟩ := exec_ok_of_ready hi hm hp h
  obtain ⟨-, -, r, hrsp, hresp⟩ := exec_answeredOnce hi h
  obtain rfl : r = responseWord .ok d := Option.some.inj (hrsp.symm.trans hd)
  exact ⟨_, hrsp, hresp, statusField_responseWord .ok d⟩

/-- Settles O48. -/
theorem readyCommandsCompleteWithOk : Obligations.ReadyCommandsCompleteWithOk := by
  intro i s hi hm hp
  obtain ⟨t, ht⟩ := exec_total i s
  obtain ⟨r, hr⟩ := exec_responds_ok hi hm hp ht
  exact ⟨t, r, ht, hr⟩

/-! ### Where an error response comes from (R131, R132) -/

/-- A command that answers an error has raised it, and done nothing else: INIT does not answer, and what passes the mode
gate and the port check answers OK. -/
theorem exec_eq_raiseStatus_of_error {i : Instr} {s t : State} {r : Word} (h : exec i s = .next t)
    (hr : t.responses = s.responses ++ [r]) (he : statusField r ≠ 0#3) :
    ∃ st, st ≠ .permissionDenied ∧ t = raiseStatus st s := by
  have hi : i ≠ .init := by
    rintro rfl
    cases h
    simp at hr
  cases hm : s.mode with
  | uninit =>
    rw [exec_of_uninit hi hm] at h
    cases h
    exact ⟨.notReady, nofun, rfl⟩
  | ready =>
    cases hp : i.portValid with
    | false =>
      rw [exec_of_invalidPort hm hp] at h
      cases h
      exact ⟨.invalidPort, nofun, rfl⟩
    | true =>
      obtain ⟨r', -, hr', hok⟩ := exec_responds_ok hi hm hp h
      obtain rfl : r' = r := by simpa [hr'] using hr
      exact absurd hok he

/-- A step that answers an error has raised it on a state that differs from the one before in the port and the
environment alone; PERMISSION_DENIED is raised by a DENY, on the way back to IDLE, and every other error keeps the phase. -/
theorem step_eq_raiseStatus_of_error {s t : State} {r : Word} (h : step s = .next t)
    (hr : t.responses = s.responses ++ [r]) (he : statusField r ≠ 0#3) :
    ∃ st ph ws sch n, t = raiseStatus st { s with phase := ph, held := ws, schedule := sch, turns := n } ∧
      ((st = .permissionDenied ∧ Answers s .deny ∧ ph = .idle) ∨ (st ≠ .permissionDenied ∧ ph = s.phase)) := by
  obtain ⟨_, ⟨sch, n, rfl⟩, -, hcase⟩ := step_cases h
  obtain ⟨_, rest, i, -, -, hexec⟩ | ⟨_, rest, -, -, rfl⟩ | ⟨-, rfl⟩ | ⟨w, -, rfl⟩ | ⟨g, hg, rfl⟩ | ⟨-, -, -, rfl⟩ := hcase
  · obtain ⟨st, hst, rfl⟩ := exec_eq_raiseStatus_of_error hexec hr he
    exact ⟨st, s.phase, rest, sch, n, rfl, .inr ⟨hst, rfl⟩⟩
  · exact ⟨.invalidOp, s.phase, rest, sch, n, rfl, .inr ⟨nofun, rfl⟩⟩
  · simp at hr
  · simp at hr
  · cases g with
    | deny => exact ⟨.permissionDenied, .idle, s.held, sch, n, rfl, .inl ⟨rfl, hg, rfl⟩⟩
    | grant =>
      obtain rfl : responseWord .ok 0x00#8 = r := by simpa [initAnswer] using hr
      exact absurd (statusField_responseWord .ok 0x00#8) he
  · simp at hr

theorem statusCode_eq_one_iff {st : Status} : statusCode st = 1#3 ↔ st = .permissionDenied := by
  cases st <;> decide

/-- Settles O44: an illegal word does not decode, the mode gate comes before the port check, INIT has neither, and only a
DENY raises PERMISSION_DENIED. -/
theorem firstApplicableStatusIsReported : Obligations.FirstApplicableStatusIsReported := by
  refine ⟨fun s w rest ha => ⟨fun hillegal => step_of_illegal ha ((decode_rejects_iff w).2 hillegal),
    fun i hd => ⟨fun hi hm => ?_, fun _ hm hp => ?_, fun hi => ?_⟩⟩, fun s t r h hr hone => ?_⟩
  · exact (step_of_instr ha hd).trans (exec_of_uninit hi ((takeTurn_mode s).trans hm))
  · exact (step_of_instr ha hd).trans (exec_of_invalidPort ((takeTurn_mode s).trans hm) hp)
  · subst hi
    exact ⟨_, step_of_instr ha hd, rfl, takeTurn_responses s⟩
  · have herror : statusField r ≠ 0#3 := by simp [hone]
    obtain ⟨st, ph, ws, sch, n, rfl, ⟨-, hdeny, -⟩ | ⟨hst, -⟩⟩ := step_eq_raiseStatus_of_error h hr herror
    · exact hdeny
    · obtain rfl : responseWord st 0x00#8 = r := by simpa using hr
      rw [statusField_responseWord] at hone
      exact absurd (statusCode_eq_one_iff.1 hone) hst

/-- Settles O45: an error is raised on the state before it, whatever the port and the environment do; a denied INIT is the
request and then the denial. -/
theorem errorsHaveNoEffectOnRegisters : Obligations.ErrorsHaveNoEffectOnRegisters := by
  refine ⟨fun s t r h hr herror => ?_, fun s ms hs => ?_⟩
  · obtain ⟨st, ph, ws, sch, n, rfl, hphase⟩ := step_eq_raiseStatus_of_error h hr herror
    obtain rfl : responseWord st 0x00#8 = r := by simpa using hr
    rw [statusField_responseWord, ne_eq, statusCode_eq_one_iff]
    refine ⟨rfl, rfl, rfl, rfl, rfl, rfl, fun hne => ?_, fun hdenied => ?_⟩
    · obtain ⟨hdenied, -⟩ | ⟨-, hkept⟩ := hphase
      · exact absurd hdenied hne
      · exact hkept
    · obtain ⟨-, ⟨hwait, -⟩, hidle⟩ | ⟨hne, -⟩ := hphase
      · exact ⟨hwait, hidle⟩
      · exact absurd hdenied hne
  · exact ⟨privRequest s, initCompleted .deny ms s, rfl, step_privRequest hs, rfl, rfl, rfl, rfl⟩

end Sys2Proof.Machine

/-! ## Reset and hazards (70_reset_and_hazards.md) -/

namespace Sys2Proof.Machine

/-! ### The environment's moves and the reset (R150, R171) -/

/-- Settles O12. -/
theorem environmentMovesAtAnyTime : Obligations.EnvironmentMovesAtAnyTime := by
  refine ⟨fun s => ⟨step_of_moves, step_of_moves, fun w hm => ?_, step_of_block_idle⟩,
    fun s m ms => takeTurn_of_schedule, fun s hs => ?_⟩
  · rw [step_of_moves hm, applyMove, takeTurn_held]
  · simp only [takeTurn, hs]

/-- Settles O49: `hardReset` is that record update. -/
theorem resetChangesNothingElse : Obligations.ResetChangesNothingElse :=
  ⟨fun _ => rfl, fun _ => step_of_moves⟩

/-! ### A request that is never answered (R165) -/

theorem not_accepts_of_waitPriv {s : State} {w : Word} {rest : List Word} (hp : s.phase = .waitPriv) :
    ¬ Accepts s w rest := by
  rintro ⟨-, hidle, -⟩
  simp [hp] at hidle

/-- In WAIT_PRIV a step that is neither the answer to the request nor a reset takes its turn and holds the words presented. -/
theorem step_of_unanswered {s : State} (hp : s.phase = .waitPriv) (ha : ∀ g, ¬ Moves s (.answer s.requests g))
    (hr : ¬ Moves s .reset) :
    ∃ ws sch n, step s = .next { s with held := s.held ++ ws, schedule := sch, turns := n } := by
  obtain ⟨t, ht⟩ := everyStepAnswersANextState s
  obtain ⟨_, ⟨sch, n, rfl⟩, -, hcase⟩ := step_cases ht
  obtain ⟨_, _, _, hacc, -, -⟩ | ⟨_, _, hacc, -, -⟩ | ⟨hm, -⟩ | ⟨w, -, rfl⟩ | ⟨g, ⟨-, hm⟩, -⟩ | ⟨-, -, -, rfl⟩ := hcase
  · exact absurd hacc (not_accepts_of_waitPriv hp)
  · exact absurd hacc (not_accepts_of_waitPriv hp)
  · exact absurd hm hr
  · exact ⟨[w], sch, n, ht⟩
  · exact absurd hm (ha g)
  · exact ⟨[], sch, n, by rw [ht, List.append_nil]⟩

/-- And so does a run of such steps. -/
theorem run_of_unanswered {n : Nat} {s : State} (hp : s.phase = .waitPriv)
    (h : ∀ k u, k < n → Sys2Proof.core.run k s = .next u → (∀ g, ¬ Moves u (.answer s.requests g)) ∧ ¬ Moves u .reset) :
    ∃ ws sch m, Sys2Proof.core.run n s = .next { s with held := s.held ++ ws, schedule := sch, turns := m } := by
  induction n generalizing s with
  | zero => exact ⟨[], s.schedule, s.turns, by rw [List.append_nil]; rfl⟩
  | succ n ih =>
    obtain ⟨ha, hr⟩ := h 0 s n.succ_pos rfl
    obtain ⟨ws, sch, m, hstep⟩ := step_of_unanswered hp ha hr
    have hrun (k : Nat) := run_succ_of_step (M := Sys2Proof.core) (n := k) hstep
    obtain ⟨ws', sch', m', hrest⟩ := ih (s := { s with held := s.held ++ ws, schedule := sch, turns := m }) hp
      fun k u hk hu => h (k + 1) u (Nat.succ_lt_succ hk) ((hrun k).trans hu)
    exact ⟨ws ++ ws', sch', m', by rw [hrun, hrest, List.append_assoc]⟩

/-- Settles O15. -/
theorem unansweredInitHangsThePort : Obligations.UnansweredInitHangsThePort := by
  intro n s hp h
  obtain ⟨ws, sch, m, hrun⟩ := run_of_unanswered hp h
  exact ⟨_, hrun, hp, rfl, rfl, rfl, rfl, rfl, rfl, ws, rfl⟩

/-! ### A request that a reset abandoned (R150, R84) -/

/-- A property that every step keeps holds after every run. -/
theorem run_keeps {P : State → Prop} (hstep : ∀ s t, step s = .next t → P s → P t) {n : Nat} {s t : State}
    (h : Sys2Proof.core.run n s = .next t) (hs : P s) : P t := by
  induction n generalizing s with
  | zero =>
    cases h
    exact hs
  | succ n ih =>
    obtain ⟨u, hu, hrun⟩ := run_succ_cases h
    exact ih hrun (hstep s u hu hs)

/-- A step makes one more request, or makes none and does not begin to wait. -/
theorem step_request_cases {s t : State} (h : step s = .next t) :
    t.requests = s.requests + 1 ∨ (t.requests = s.requests ∧ (t.phase = .waitPriv → s.phase = .waitPriv)) := by
  obtain ⟨_, ⟨sch, n, rfl⟩, -, hcase⟩ := step_cases h
  obtain ⟨_, rest, i, -, -, hexec⟩ | ⟨_, rest, -, -, rfl⟩ | ⟨-, rfl⟩ | ⟨w, -, rfl⟩ | ⟨g, -, rfl⟩ | ⟨-, -, -, rfl⟩ := hcase
  · by_cases hi : i = .init
    · subst hi
      cases hexec
      exact .inl rfl
    · obtain ⟨hreq, -⟩ := exec_makesNoRequest hi hexec
      obtain ⟨hphase, -, -⟩ := exec_answeredOnce hi hexec
      exact .inr ⟨hreq, fun ht => hphase.symm.trans ht⟩
  · exact .inr ⟨rfl, id⟩
  · exact .inr ⟨rfl, fun ht => Phase.noConfusion ht⟩
  · exact .inr ⟨rfl, id⟩
  · obtain ⟨hreq, -⟩ := initAnswer_makesNoRequest g { s with schedule := sch, turns := n }
    exact .inr ⟨hreq, fun ht => by simp at ht⟩
  · exact .inr ⟨rfl, id⟩

/-- Request `n` has been made and does not wait: only a later one can. -/
def RequestClosed (n : Nat) (s : State) : Prop := n ≤ s.requests ∧ (s.phase = .waitPriv → n ≠ s.requests)

/-- It never waits again, since a request that is made takes a new number. -/
theorem step_requestClosed {n : Nat} {s t : State} (h : step s = .next t) (hs : RequestClosed n s) : RequestClosed n t := by
  obtain ⟨hle, hne⟩ := hs
  obtain hreq | ⟨hreq, hphase⟩ := step_request_cases h
  · have hlt : n < t.requests := hreq ▸ Nat.lt_succ_of_le hle
    exact ⟨hlt.le, fun _ => hlt.ne⟩
  · exact ⟨hreq ▸ hle, fun ht => hreq ▸ hne (hphase ht)⟩

/-- A reset closes every request made before it, the one that waits too. -/
theorem hardReset_requestClosed (s : State) : RequestClosed s.requests (hardReset s) :=
  ⟨le_rfl, fun hp => Phase.noConfusion hp⟩

/-- Settles O50: the reset closes the request, and it stays closed through the run. -/
theorem abandonedRequestsAnswerIsIgnored : Obligations.AbandonedRequestsAnswerIsIgnored := by
  refine ⟨fun n s u v _ hm hu hrun g ha => ?_, fun s n g => step_of_ignored_answer⟩
  have hreset : RequestClosed s.requests u := by
    rw [step_of_moves hm] at hu
    cases hu
    exact takeTurn_requests s ▸ hardReset_requestClosed (takeTurn s).2
  obtain ⟨-, hne⟩ := run_keeps (fun _ _ => step_requestClosed) hrun hreset
  exact step_of_ignored_answer ha hne

/-! ### What PINON and PINOFF write back, and registers not yet written (R164, R169) -/

theorem setPins_getLsbD_of_unmasked {m : Byte} {k : Nat} (v : Byte) (h : m.getLsbD k = false) :
    (setPins m v).getLsbD k = v.getLsbD k := by
  rw [setPins_getLsbD, h, Bool.or_false]

theorem clearPins_getLsbD_of_unmasked {m : Byte} {k : Nat} (v : Byte) (h : m.getLsbD k = false) :
    (clearPins m v).getLsbD k = v.getLsbD k := by
  by_cases hk : k < 8
  · rw [clearPins_getLsbD m v hk, h, Bool.not_false, Bool.and_true]
  · rw [BitVec.getLsbD_of_ge _ k (not_lt.1 hk), BitVec.getLsbD_of_ge _ k (not_lt.1 hk)]

theorem readOutcome_of_drawnRead {s : State} {sel : Sel} (h : DrawnRead s sel) :
    ReadOutcome s sel (Config.draw s.draws) (s.draws + 1) :=
  .inl ⟨h, rfl, rfl⟩

theorem readOutcome_of_val {s : State} {sel : Sel} {w : Byte} (hst : s.readSource = .store) (hx : s.x.get sel = .val w) :
    ReadOutcome s sel w s.draws :=
  .inr ⟨not_drawnRead_of_val (.inr (.inr hst)) hx, hx, rfl⟩

/-- Settles O35: each command writes its function of the byte read, which keeps the unmasked lanes. -/
theorem pinCommandsWriteSensedLevelsBack : Obligations.PinCommandsWriteSensedLevelsBack := by
  intro s p m sel hm hr
  obtain ⟨v, n, hv, -⟩ := memRead_spec sel s
  have hdraw (hext : s.readSource = .external) : v = Config.draw s.draws :=
    (readOutcome_unique hv (readOutcome_of_drawnRead (drawnRead_of_external hr hext))).1
  have hon := dataCommand_readModifyWrite_eq (setPins m) hm hr hv
  have hoff := dataCommand_readModifyWrite_eq (clearPins m) hm hr hv
  exact ⟨v, n, _, _, _, _, hv, hdraw, congrArg Host.Outcome.next hon, congrArg Host.Outcome.next hoff,
    get_set_same .., get_set_same ..,
    fun k hk => ⟨setPins_getLsbD_of_unmasked v hk, clearPins_getLsbD_of_unmasked v hk⟩⟩

/-- Settles O43: the read of an `Unwritten` register is drawn and leaves it so; that of a written one, under `Store`, returns
its byte. -/
theorem unwrittenDataRegisterReadsAsDraws : Obligations.UnwrittenDataRegisterReadsAsDraws := by
  intro s p sel hm hr
  refine ⟨fun hx => ?_, fun w hst hx => ⟨_, exec_readport_of_readOutcome hm hr (readOutcome_of_val hst hx), rfl⟩⟩
  have hv : ReadOutcome s sel (Config.draw s.draws) (s.draws + 1) := readOutcome_of_drawnRead (.inr hx)
  refine ⟨⟨_, _, exec_readport_of_readOutcome hm hr hv, rfl, hx,
    exec_readport_of_readOutcome hm hr (readOutcome_of_drawnRead (.inr hx)), rfl⟩, fun m => ?_⟩
  have hon := dataCommand_readModifyWrite_eq (setPins m) hm hr hv
  have hoff := dataCommand_readModifyWrite_eq (clearPins m) hm hr hv
  exact ⟨_, _, congrArg Host.Outcome.next hon, get_set_same .., congrArg Host.Outcome.next hoff, get_set_same ..⟩

end Sys2Proof.Machine
